-- ==== Sys2Proof/Word.lean ====
section
/-! DEFINITION. The words of the NDE (spec/00_scope.md R5, R7) and the shape of its fixed arrays. -/

namespace Sys2Proof

/-- A symbol, a digest byte, a table byte: `SYM_W` = 8 bits (00_scope.md R5). -/
abbrev Byte := BitVec 8

/-- A command word, `CMD_W` = 16 bits (30_encoding.md R60). -/
abbrev CommandWord := BitVec 16

/-- A response payload, 256 bits (30_encoding.md R66). -/
abbrev Payload := BitVec 256

/-- An array of `n` entries whose entry `i` is `f i`. -/
def tabulate {α : Type} (n : Nat) (f : Nat → α) : Vector α n :=
  ⟨((List.range n).map f).toArray, by simp⟩

end Sys2Proof
end

