-- ==== Sys2Proof/Syntax.lean ====
section
/-! DEFINITION. The twelve commands (spec/30_encoding.md R63, spec/opcode_table.json) and the raw CMD16 format (R60). -/

namespace Sys2Proof

/-- The commands of the NDE, one constructor per row of the opcode table. The only explicit operand form is
the immediate byte, used as it stands (R61); every other operand is implicit state. -/
inductive Instr where
  /-- `ACLR`: empty the accumulator (R90). -/
  | aclr
  /-- `UPD imm`: consume one symbol (R91). -/
  | upd (imm : Byte)
  /-- `DGST`: build the digest (R110). -/
  | dgst
  /-- `RDH imm`: read one histogram slot (R99). -/
  | rdh (imm : Byte)
  /-- `STAT`: read the small registers (R140). -/
  | stat
  /-- `CLRA`: make operand A empty (R120). -/
  | clra
  /-- `CLRB`: make operand B empty (R121). -/
  | clrb
  /-- `LDA imm`: append one byte to operand A (R122). -/
  | lda (imm : Byte)
  /-- `LDB imm`: append one byte to operand B (R123). -/
  | ldb (imm : Byte)
  /-- `MVA`: operand A becomes the last digest built (R124). -/
  | mva
  /-- `MVB`: operand B becomes the last digest built (R125). -/
  | mvb
  /-- `CMP`: score operand A against operand B (R126). -/
  | cmp
  deriving DecidableEq, Repr

/-- The three fields of the one format CMD16 (R60), before anything has been checked. -/
structure RawCommand where
  /-- bits 15:12, the opcode -/
  op  : BitVec 4
  /-- bits 11:8, reserved, must be zero -/
  z   : BitVec 4
  /-- bits 7:0, the immediate -/
  imm : Byte
  deriving DecidableEq, Repr

/-- The pseudo-instructions (30_encoding.md R70). An operand written as text or in hexadecimal stands here as the bytes it spells. -/
inductive Pseudo where
  /-- `UPDATE b0, b1, …` or `UPDATE "text"` -/
  | update (bs : List Byte)
  /-- `LOADA hex64`; "the string may spell any number of bytes, not only 32" -/
  | loada (bs : List Byte)
  /-- `LOADB hex64` -/
  | loadb (bs : List Byte)
  /-- `NEW` -/
  | new
  deriving DecidableEq, Repr

/-- Why a word is no command (R62, R64). -/
inductive IllegalWord where
  /-- the reserved bits 11:8 are not zero -/
  | reservedNotZero
  /-- the opcode is 0x0, 0xD, 0xE or 0xF -/
  | unassignedOpcode
  /-- a command without an immediate has bits 7:0 not zero -/
  | immediateNotZero
  deriving DecidableEq, Repr

end Sys2Proof
end

