-- ==== Sys2Proof/WellFormed.lean ====
section
/-! DEFINITION. Which raw commands are commands: the three checks of spec/30_encoding.md R62.
Every term of `Instr` is well formed by its type: "every value of `imm` is legal in the commands that take one"
(R61), and the immediate is a byte. So what can be ill formed is a raw command word, and the checks are on it. -/

namespace Sys2Proof

/-- "its `op` is assigned" (R62): 0x1 to 0xC (R63). -/
def RawCommand.opAssigned (r : RawCommand) : Bool :=
  decide (1 ≤ r.op.toNat) && decide (r.op.toNat ≤ 12)

/-- "its `z` is zero" (R62). -/
def RawCommand.reservedClear (r : RawCommand) : Bool :=
  r.z == 0#4

/-- The opcodes whose command takes an immediate: `UPD`, `RDH`, `LDA`, `LDB` (R63). -/
def RawCommand.takesImmediate (r : RawCommand) : Bool :=
  r.op == 0x2#4 || r.op == 0x4#4 || r.op == 0x8#4 || r.op == 0x9#4

/-- "if the command takes no immediate, its `imm` is zero" (R62). -/
def RawCommand.immediateAllowed (r : RawCommand) : Bool :=
  r.takesImmediate || r.imm == 0#8

/-- A raw command that is a command (R62). -/
def RawCommand.wf (r : RawCommand) : Bool :=
  r.opAssigned && r.reservedClear && r.immediateAllowed

end Sys2Proof
end

