-- ==== Sys2Proof/Decode.lean ====
section
/-! DEFINITION. The decoder, total on the 65,536 words and rejecting by name (spec/30_encoding.md R60 to R65), and
after it the encoder and the opcode map in match and mask form, each written from the spec on its own. -/

namespace Sys2Proof

/-- The fields of a word: `op` in 15:12, `z` in 11:8, `imm` in 7:0 (R60). -/
def RawCommand.ofWord (w : CommandWord) : RawCommand :=
  { op := w.extractLsb' 12 4, z := w.extractLsb' 8 4, imm := w.extractLsb' 0 8 }

/-- A command without an immediate "must be 0x00" in bits 7:0 (R60, R64). -/
def withoutImmediate (imm : Byte) (i : Instr) : Except IllegalWord Instr :=
  if imm = 0#8 then .ok i else .error .immediateNotZero

/-- The opcode map (R63) for a word whose reserved bits are zero. -/
def decodeOp (op : Nat) (imm : Byte) : Except IllegalWord Instr :=
  match op with
  | 0x1 => withoutImmediate imm .aclr
  | 0x2 => .ok (.upd imm)
  | 0x3 => withoutImmediate imm .dgst
  | 0x4 => .ok (.rdh imm)
  | 0x5 => withoutImmediate imm .stat
  | 0x6 => withoutImmediate imm .clra
  | 0x7 => withoutImmediate imm .clrb
  | 0x8 => .ok (.lda imm)
  | 0x9 => .ok (.ldb imm)
  | 0xA => withoutImmediate imm .mva
  | 0xB => withoutImmediate imm .mvb
  | 0xC => withoutImmediate imm .cmp
  | _ => .error .unassignedOpcode

/-- The decoder: strict and total, and it needs no state (R62, R64, R65). Which name a word gets that is illegal
for two reasons is the model's own choice (DESIGN CHOICE, log entry 11); no state and no response shows it. -/
def decode (w : CommandWord) : Except IllegalWord Instr :=
  let r := RawCommand.ofWord w
  if r.z = 0#4 then decodeOp r.op.toNat r.imm else .error .reservedNotZero

/-- A word of opcode `op` and immediate `imm` with the reserved bits zero (R60). -/
def assemble (op : BitVec 4) (imm : Byte) : CommandWord :=
  op ++ (0#4 ++ imm)

/-- The encoder, from the column "Word" of R63. -/
def encode : Instr → CommandWord
  | .aclr => assemble 0x1#4 0#8
  | .upd imm => assemble 0x2#4 imm
  | .dgst => assemble 0x3#4 0#8
  | .rdh imm => assemble 0x4#4 imm
  | .stat => assemble 0x5#4 0#8
  | .clra => assemble 0x6#4 0#8
  | .clrb => assemble 0x7#4 0#8
  | .lda imm => assemble 0x8#4 imm
  | .ldb imm => assemble 0x9#4 imm
  | .mva => assemble 0xA#4 0#8
  | .mvb => assemble 0xB#4 0#8
  | .cmp => assemble 0xC#4 0#8

/-- One row of spec/opcode_table.json in match and mask form (R62). -/
structure OpcodeRow where
  mnemonic : String
  pattern  : CommandWord
  mask     : CommandWord
  deriving DecidableEq, Repr

/-- spec/opcode_table.json, row by row. -/
def opcodeRows : List OpcodeRow :=
  [⟨"ACLR", 0x1000#16, 0xFFFF#16⟩, ⟨"UPD", 0x2000#16, 0xFF00#16⟩, ⟨"DGST", 0x3000#16, 0xFFFF#16⟩,
   ⟨"RDH", 0x4000#16, 0xFF00#16⟩, ⟨"STAT", 0x5000#16, 0xFFFF#16⟩, ⟨"CLRA", 0x6000#16, 0xFFFF#16⟩,
   ⟨"CLRB", 0x7000#16, 0xFFFF#16⟩, ⟨"LDA", 0x8000#16, 0xFF00#16⟩, ⟨"LDB", 0x9000#16, 0xFF00#16⟩,
   ⟨"MVA", 0xA000#16, 0xFFFF#16⟩, ⟨"MVB", 0xB000#16, 0xFFFF#16⟩, ⟨"CMP", 0xC000#16, 0xFFFF#16⟩]

/-- "a command … matches when `word AND mask = match`" (R62). -/
def OpcodeRow.matches (r : OpcodeRow) (w : CommandWord) : Bool :=
  w &&& r.mask == r.pattern

/-- The name of a command in the opcode map (R63). -/
def Instr.mnemonic : Instr → String
  | .aclr => "ACLR"
  | .upd _ => "UPD"
  | .dgst => "DGST"
  | .rdh _ => "RDH"
  | .stat => "STAT"
  | .clra => "CLRA"
  | .clrb => "CLRB"
  | .lda _ => "LDA"
  | .ldb _ => "LDB"
  | .mva => "MVA"
  | .mvb => "MVB"
  | .cmp => "CMP"

/-- The instruction the decoder reads from `nbits` bits of `w`, every bit above them zero. A command is one whole
16-bit word (R60); a number that does not fit in one is no command (log entry 16). -/
def decodeTableWord (nbits w : Nat) : Option Instr :=
  if w % 2 ^ nbits < 2 ^ 16 then
    match decode (BitVec.ofNat 16 (w % 2 ^ nbits)) with
    | .ok i => some i
    | .error _ => none
  else none

end Sys2Proof
end

