-- ==== Sys2Proof/Config.lean ====
section
/-! DEFINITION. The implementation parameters of spec/00_scope.md R5. One is open, `CNT_W`; it stands here. The others are fixed and
stand as plain widths in the types that have them: `SYM_W` = 8 (`Byte`), `N_SLOTS` = 256, `WIN` = 4 and `HIST_W` = `CNT_W` + 3
(`Machine.Accumulator`), `N_MIX` = 8 (the index of `Machine.mix`), `DIG_BYTES` = 32 and `LEN_W` = 6 (`Machine.OperandBuffer`),
`CMD_W` = 16 (`CommandWord`), `MIX_FN` (`Machine.mix`, not replaceable). The contents of `TRAN` stand in Machine/Tables.lean. -/

namespace Sys2Proof.Config

/-- `CNT_W`, the width of `COUNT`: the spec's one open parameter (3 to 64), at its default 32
(92_eei_decisions.md D4). The accumulator is written for every width; this fixes the machine's (log entry 7). -/
abbrev cntW : Nat := 32

end Sys2Proof.Config
end

