-- ==== Sys2Proof/Machine/State.lean ====
section
/-! DEFINITION. The state of the NDE (spec/10_state.md R10: "The complete state of the NDE is the following and nothing else"),
its value after reset (R25), and beside it the two lists that stand for the host at the port: what it has yet to
issue and what it has received (30_encoding.md R66, 70_reset_and_hazards.md R181). -/

namespace Sys2Proof.Machine

/-- The accumulator state: the histogram with the window and the count (00_scope.md R9, 10_state.md R14 to R17), for
a count of `n` = `CNT_W` bits. -/
structure Accumulator (n : Nat) where
  /-- `ACC[0..255]`, the histogram, `HIST_W` = `CNT_W` + 3 bits a slot (R14) -/
  acc   : Vector (BitVec (n + 3)) 256
  /-- `W[0..3]`, the window, newest symbol first (R15) -/
  w     : Vector Byte 4
  /-- `P[3:0]`, the presence flags (R15) -/
  p     : BitVec 4
  /-- `COUNT`, the symbols consumed (R17) -/
  count : BitVec n
  deriving DecidableEq, Repr

/-- An empty accumulator (R25, 41_accumulator.md R90): "all zero-initialized". -/
def Accumulator.empty (n : Nat) : Accumulator n :=
  { acc := Vector.replicate 256 0, w := Vector.replicate 4 0#8, p := 0#4, count := 0 }

/-- An operand buffer: `OPA` with `LA`, or `OPB` with `LB` (10_state.md R20). -/
structure OperandBuffer where
  /-- the 32 stored bytes -/
  bytes : Vector Byte 32
  /-- the length counter, `LEN_W` = 6 bits, saturating at 63 -/
  len   : BitVec 6
  deriving DecidableEq, Repr

/-- An empty operand buffer: every byte 0x00, length 0 (R25). -/
def OperandBuffer.empty : OperandBuffer :=
  { bytes := Vector.replicate 32 0#8, len := 0#6 }

/-- The status of a response (30_encoding.md R67); codes 0x4 to 0xF are never produced. -/
inductive Status where
  | ok
  | invalidDigestLength
  | illegalCommand
  | countOverflow
  deriving DecidableEq, Repr

/-- The errors a command can raise (60_exceptions.md R150). -/
inductive Error where
  /-- raised by `CMP` (R151) -/
  | invalidDigestLength
  /-- raised by the decoder (R152) -/
  | illegalCommand
  /-- raised by `UPD` (R153) -/
  | countOverflow
  deriving DecidableEq, Repr

/-- A response (30_encoding.md R66). -/
structure Response where
  status  : Status
  payload : Payload
  deriving DecidableEq, Repr

/-- What the host can do to the engine: issue one 16-bit word, or assert reset (70_reset_and_hazards.md R170, R182). -/
inductive HostEvent where
  /-- one command word, any of the 65,536 -/
  | command (w : CommandWord)
  /-- the reset event -/
  | reset
  deriving DecidableEq, Repr

/-- The machine. The fields down to `fault` are the engine's (R10); `script` and `responses` are the model's own
and stand for the host (DESIGN CHOICE, log entries 1 and 2). -/
structure State where
  /-- `TRAN`, a ROM (R11) -/
  tran      : TranTable
  /-- `POPC`, a ROM (R13) -/
  popc      : PopcTable
  /-- `ACC`, `W`, `P`, `COUNT` -/
  accum     : Accumulator Config.cntW
  /-- `DG[0..31]`, the last digest built, `DG[0]` its first byte (R19) -/
  dg        : Vector Byte 32
  /-- `OPA`, `LA` (R20) -/
  opA       : OperandBuffer
  /-- `OPB`, `LB` (R20) -/
  opB       : OperandBuffer
  /-- `FAULT[2:0]`: bit 0 `IDL`, bit 1 `ILL`, bit 2 `COVF` (R22) -/
  fault     : BitVec 3
  /-- the events the host has yet to issue, the next one first -/
  script    : List HostEvent
  /-- the responses the host has received, the latest first -/
  responses : List Response
  deriving DecidableEq, Repr

/-- Reasons for which the machine stops. There are none: every error the spec names is an ordinary response after
which the engine goes on (60_exceptions.md R154, R158), and no access is out of range (20_memory.md R40). Safe: log entry 10. -/
inductive Fault where
  deriving DecidableEq, Repr

/-- Reasons for which a step has no meaning. -/
inductive Refusal where
  /-- A command of the table with no meaning yet; raised by no arm of `exec` in this model (safe). -/
  | notModelled (mnemonic : String)
  deriving DecidableEq, Repr

/-- The state after the reset event (R25, 70_reset_and_hazards.md R170), before the host has issued anything. -/
def State.reset : State :=
  { tran := Config.tran
    popc := Config.popc
    accum := Accumulator.empty Config.cntW
    dg := Vector.replicate 32 0#8
    opA := OperandBuffer.empty
    opB := OperandBuffer.empty
    fault := 0#3
    script := []
    responses := [] }

end Sys2Proof.Machine
end

