-- ==== Sys2Proof/Machine/Flags.lean ====
section
/-! DEFINITION. The only flags of the NDE (spec/10_state.md R23): the presence flags `P[0..3]` (R15) and the sticky error flags
`FAULT[2:0]` (R22). There are no condition codes. -/

namespace Sys2Proof.Machine

/-- `P[k] = 1`: window position `k` holds a consumed symbol (R15). Presence is the flag, never the byte (41_accumulator.md R98). -/
def present (p : BitVec 4) (k : Nat) : Bool :=
  p.getLsbD k

/-- "presence flags shift the same way with `P[0] <- 1`" (41_accumulator.md R95). -/
def shiftPresence (p : BitVec 4) : BitVec 4 :=
  p.extractLsb' 0 3 ++ 1#1

/-- The `FAULT` bit an error sets (60_exceptions.md R150). -/
def Error.faultBit : Error → BitVec 3
  | .invalidDigestLength => 0b001#3
  | .illegalCommand => 0b010#3
  | .countOverflow => 0b100#3

/-- "A bit once set stays set until reset" (R22): setting one leaves the others. -/
def setFault (f : BitVec 3) (e : Error) : BitVec 3 :=
  f ||| e.faultBit

end Sys2Proof.Machine
end

