-- ==== Sys2Proof/Machine/Ops.lean ====
section
/-! DEFINITION. The operations every command is made of: reading and writing one entry of an index space (spec/20_memory.md R40),
giving the response (30_encoding.md R66), raising an error (60_exceptions.md R154), and the reset event
(70_reset_and_hazards.md R170). There is no return from an error to model: "nothing was entered" (60_exceptions.md R158). -/

namespace Sys2Proof.Machine

/-- `MemRead` of a space of 256 entries (`TRAN`, `POPC`, `ACC`): the index is 8 bits, so it is always in range (R40). -/
def at8 {α : Type} (space : Vector α 256) (i : BitVec 8) : α :=
  space[i.toNat]'i.isLt

/-- `MemWrite` of a space of 256 entries. -/
def put8 {α : Type} (space : Vector α 256) (i : BitVec 8) (v : α) : Vector α 256 :=
  space.set i.toNat v i.isLt

/-- `MemRead` of a space of 32 entries (`DG`, `OPA`, `OPB`): the index is 5 bits (R40). -/
def at5 {α : Type} (space : Vector α 32) (i : BitVec 5) : α :=
  space[i.toNat]'i.isLt

/-- `MemWrite` of a space of 32 entries. -/
def put5 {α : Type} (space : Vector α 32) (i : BitVec 5) (v : α) : Vector α 32 :=
  space.set i.toNat v i.isLt

/-- The four-bit code of a status (30_encoding.md R67). -/
def Status.code : Status → BitVec 4
  | .ok => 0x0#4
  | .invalidDigestLength => 0x1#4
  | .illegalCommand => 0x2#4
  | .countOverflow => 0x3#4

/-- The response as one 260-bit value: status in 259:256, payload in 255:0 (R66). -/
def Response.bits (r : Response) : BitVec 260 :=
  r.status.code ++ r.payload

/-- The status by which an error is reported (60_exceptions.md R150). -/
def Error.status : Error → Status
  | .invalidDigestLength => .invalidDigestLength
  | .illegalCommand => .illegalCommand
  | .countOverflow => .countOverflow

/-- `respond(OK, payload)` (00_scope.md R8, 30_encoding.md R66): the host receives the response; the engine keeps nothing
of it (10_state.md R26). -/
def respond (payload : Payload) (s : State) : State :=
  { s with responses := { status := .ok, payload := payload } :: s.responses }

/-- `raise e` (60_exceptions.md R154): the error's `FAULT` bit is set, the response is `(code, 0)`, nothing else changes. -/
def raise (e : Error) (s : State) : State :=
  { s with
    fault := setFault s.fault e
    responses := { status := e.status, payload := 0 } :: s.responses }

/-- The reset event (70_reset_and_hazards.md R170): every register takes its value of 10_state.md R25. The ROMs are written by
"nothing, ever" (R10, R12), so they stay as they are; the host gets no response back (R182) and keeps what it has received
and what it has yet to issue (log entries 6 and 13). -/
def takeReset (s : State) : State :=
  { State.reset with
    tran := s.tran
    popc := s.popc
    script := s.script
    responses := s.responses }

/-- A payload with one more byte at its low end: `{v, b}`, cut to 256 bits (00_scope.md R7). -/
def appendByte (v : Payload) (b : Byte) : Payload :=
  (v <<< 8) ||| b.setWidth 256

/-- A 32-byte digest as one payload, byte 0 in bits 255:248 and byte 31 in bits 7:0 (20_memory.md R43, 30_encoding.md R68). -/
def packDigest (d : Vector Byte 32) : Payload :=
  d.toList.foldl appendByte 0

end Sys2Proof.Machine
end

