-- ==== Sys2Proof/Machine/Mixer.lean ====
section
/-! DEFINITION. The trigram mixer (spec/40_mixer.md R80 to R86), for any contents of `TRAN`. -/

namespace Sys2Proof.Machine

/-- `mix(a, b, c, n)` by the four reads of R86, XOR before the addition (R81), in 8-bit arithmetic (R82). -/
def mix (t : TranTable) (a b c : Byte) (n : Fin 8) : Byte :=
  let nb : Byte := BitVec.ofNat 8 n.val
  let k := at8 t nb
  let x := at8 t (a + nb)
  let y := at8 t b
  let z := at8 t (c ^^^ k)
  (x ^^^ (y * (2 * nb + 1))) + z

end Sys2Proof.Machine
end

