-- ==== Sys2Proof/Machine/Operands.lean ====
section
/-! DEFINITION. The operand forms: the immediate byte (spec/30_encoding.md R61: "There is no other operand form") and the two
operand buffers with their length counters (10_state.md R20, 43_comparator.md R120 to R127). -/

namespace Sys2Proof.Machine

/-- The immediate as a symbol or a digest byte: "used as it stands" (R61). -/
def immByte (imm : Byte) : Byte :=
  imm

/-- The immediate as a slot index of `ACC`: an unsigned value 0 to 255 (R61, 41_accumulator.md R99). -/
def immSlot (imm : Byte) : BitVec 8 :=
  imm

/-- "`LA <- min(LA + 1, 63)`; saturating" (43_comparator.md R122). -/
def bumpLen (len : BitVec 6) : BitVec 6 :=
  BitVec.ofNat 6 (min (len.toNat + 1) 63)

/-- Append one byte (R122, R123): "bytes beyond the 32nd are counted, not stored". -/
def OperandBuffer.append (b : OperandBuffer) (v : Byte) : OperandBuffer :=
  { bytes := if b.len.toNat < 32 then put5 b.bytes (b.len.setWidth 5) v else b.bytes
    len := bumpLen b.len }

/-- A buffer that holds a whole digest (R124, R125): its 32 bytes, length 32. -/
def OperandBuffer.ofDigest (d : Vector Byte 32) : OperandBuffer :=
  { bytes := d, len := 32#6 }

/-- "exactly 32 bytes long" (R127, 10_state.md R20): the length counter is 32. -/
def OperandBuffer.isDigest (b : OperandBuffer) : Bool :=
  b.len.toNat == 32

end Sys2Proof.Machine
end

