-- ==== Sys2Proof/Machine/Accumulator.lean ====
section
/-! DEFINITION. The histogram accumulator (spec/41_accumulator.md): `ACLR`, `UPD`, `RDH`. -/

namespace Sys2Proof.Machine

/-- The slots one `UPD` increments, in the order of `n` (R91, R93). The conditions test presence flags, never symbol
values (R98). -/
def selectedSlots (t : TranTable) (sym : Byte) (w : Vector Byte 4) (p : BitVec 4) : List Byte :=
  if present p 0 && present p 1 then
    mix t sym w[0] w[1] 0 ::
      (if present p 2 then
        mix t sym w[0] w[2] 1 :: mix t sym w[1] w[2] 2 ::
          (if present p 3 then
            [mix t sym w[0] w[3] 3, mix t sym w[1] w[3] 4, mix t sym w[2] w[3] 5,
             mix t w[3] w[0] sym 6, mix t w[3] w[2] sym 7]
          else [])
      else [])
  else []

/-- One increment: `ACC[u] <- ACC[u] + 1` (R91). No slot overflows in a reachable state (10_state.md R14); in any other the
slot wraps (DESIGN CHOICE, log entry 8). -/
def bump {m : Nat} (acc : Vector (BitVec m) 256) (u : Byte) : Vector (BitVec m) 256 :=
  put8 acc u (at8 acc u + 1)

/-- The increments of one `UPD`, one after another, each seeing the one before (R94). -/
def bumpAll {m : Nat} (acc : Vector (BitVec m) 256) (us : List Byte) : Vector (BitVec m) 256 :=
  us.foldl bump acc

/-- "the new `w0` becomes `symbol`; each older slot shifts back by one" (R95). -/
def shiftWindow (w : Vector Byte 4) (sym : Byte) : Vector Byte 4 :=
  #v[sym, w[0], w[1], w[2]]

/-- `COUNT = 2^CNT_W - 1` (R92). -/
def Accumulator.atTop {n : Nat} (a : Accumulator n) : Bool :=
  a.count.toNat == 2 ^ n - 1

/-- Consume one symbol below the top of the counter (R91, R93 to R95). -/
def Accumulator.consume {n : Nat} (t : TranTable) (sym : Byte) (a : Accumulator n) : Accumulator n :=
  { acc := bumpAll a.acc (selectedSlots t sym a.w a.p)
    w := shiftWindow a.w sym
    p := shiftPresence a.p
    count := a.count + 1 }

/-- `ACLR` (R90). -/
def execAclr (s : State) : Host.Outcome State Fault Refusal :=
  .next (respond 0 { s with accum := Accumulator.empty Config.cntW })

/-- `UPD imm` (R91, R92). -/
def execUpd (imm : Byte) (s : State) : Host.Outcome State Fault Refusal :=
  if s.accum.atTop then .next (raise .countOverflow s)
  else .next (respond 0 { s with accum := s.accum.consume s.tran (immByte imm) })

/-- `RDH imm` (R99): `respond(OK, zext_256(ACC[i]))`. -/
def execRdh (imm : Byte) (s : State) : Host.Outcome State Fault Refusal :=
  .next (respond ((at8 s.accum.acc (immSlot imm)).setWidth 256) s)

end Sys2Proof.Machine
end

