-- ==== Sys2Proof/Machine/Comparator.lean ====
section
/-! DEFINITION. The Hamming-distance comparator (spec/43_comparator.md): `CLRA`, `CLRB`, `LDA`, `LDB`, `MVA`, `MVB`, `CMP`. -/

namespace Sys2Proof.Machine

/-- `bit_diff_sum`: the popcount of the XOR, summed over the 32 byte positions (R128). -/
def bitDiffSum (popc : PopcTable) (a b : Vector Byte 32) : Nat :=
  ((List.range 32).map fun k =>
    (at8 popc (at5 a (BitVec.ofNat 5 k) ^^^ at5 b (BitVec.ofNat 5 k))).toNat).sum

/-- "`score <- 128 - bit_diff_sum`" (R129), a signed number. -/
def score (popc : PopcTable) (a b : Vector Byte 32) : Int :=
  128 - (bitDiffSum popc a b : Int)

/-- `sext_256(score)`, the score a 9-bit two's complement value (R129, 30_encoding.md R68). -/
def scorePayload (v : Int) : Payload :=
  (BitVec.ofInt 9 v).signExtend 256

/-- `CLRA` (R120). -/
def execClra (s : State) : Host.Outcome State Fault Refusal :=
  .next (respond 0 { s with opA := OperandBuffer.empty })

/-- `CLRB` (R121). -/
def execClrb (s : State) : Host.Outcome State Fault Refusal :=
  .next (respond 0 { s with opB := OperandBuffer.empty })

/-- `LDA imm` (R122). -/
def execLda (imm : Byte) (s : State) : Host.Outcome State Fault Refusal :=
  .next (respond 0 { s with opA := s.opA.append (immByte imm) })

/-- `LDB imm` (R123). -/
def execLdb (imm : Byte) (s : State) : Host.Outcome State Fault Refusal :=
  .next (respond 0 { s with opB := s.opB.append (immByte imm) })

/-- `MVA` (R124). -/
def execMva (s : State) : Host.Outcome State Fault Refusal :=
  .next (respond 0 { s with opA := OperandBuffer.ofDigest s.dg })

/-- `MVB` (R125). -/
def execMvb (s : State) : Host.Outcome State Fault Refusal :=
  .next (respond 0 { s with opB := OperandBuffer.ofDigest s.dg })

/-- `CMP` (R126): the length check comes before everything else (R127). -/
def execCmp (s : State) : Host.Outcome State Fault Refusal :=
  if s.opA.isDigest && s.opB.isDigest then
    .next (respond (scorePayload (score s.popc s.opA.bytes s.opB.bytes)) s)
  else .next (raise .invalidDigestLength s)

end Sys2Proof.Machine
end

