-- ==== Sys2Proof/Machine/DigestBuilder.lean ====
section
/-! DEFINITION. The digest builder (spec/42_digest_builder.md): `DGST`. -/

namespace Sys2Proof.Machine

/-- `total(COUNT)`, in unbounded naturals (R111). -/
def total (c : Nat) : Nat :=
  if c ≤ 2 then 0 else if c = 3 then 1 else if c = 4 then 4 else 8 * c - 28

/-- `ACC[i] > t / 256` (real-valued), as the engine's comparator evaluates it: `256 * ACC[i] > t` (R113). -/
def aboveMean (t slot : Nat) : Bool :=
  decide (t < 256 * slot)

/-- The byte whose bit `k`, of weight 2^k, is `f k`; "Bits accumulate by OR" (R114, 20_memory.md R42). -/
def byteOfBits (f : Nat → Bool) : Byte :=
  (List.range 8).foldl (fun v k => if f k then v ||| (1#8 <<< k) else v) 0#8

/-- Whether slot `i` is above the mean slot value (R110, R113). -/
def digestBit {n : Nat} (a : Accumulator n) (i : Byte) : Bool :=
  aboveMean (total a.count.toNat) (at8 a.acc i).toNat

/-- `pre[j]`, byte `j` before the reversal: slots `8j` to `8j + 7` (R110). -/
def preByte {n : Nat} (a : Accumulator n) (j : Nat) : Byte :=
  byteOfBits fun k => digestBit a (BitVec.ofNat 8 (8 * j + k))

/-- The digest: "`DG[j] <- pre[31 - j]`" (R110, R114). -/
def buildDigest {n : Nat} (a : Accumulator n) : Vector Byte 32 :=
  tabulate 32 fun j => preByte a (31 - j)

/-- `DGST` (R110): writes `DG` only, and answers the digest. -/
def execDgst (s : State) : Host.Outcome State Fault Refusal :=
  .next (respond (packDigest (buildDigest s.accum)) { s with dg := buildDigest s.accum })

end Sys2Proof.Machine
end

