-- ==== Sys2Proof/Machine/System.lean ====
section
/-! DEFINITION. The status command (spec/44_system.md): `STAT`. -/

namespace Sys2Proof.Machine

/-- The layout of the `STAT` payload (R141), from bit 255 down to bit 0. -/
def statusWord (s : State) : Payload :=
  0#128
    ++ (s.accum.w[3] ++ (s.accum.w[2] ++ (s.accum.w[1] ++ (s.accum.w[0]
    ++ (0#5 ++ (s.fault
    ++ (0#2 ++ (s.opB.len
    ++ (0#2 ++ (s.opA.len
    ++ (0#4 ++ (s.accum.p
    ++ s.accum.count.setWidth 64))))))))))))

/-- `STAT` (R140): writes nothing. -/
def execStat (s : State) : Host.Outcome State Fault Refusal :=
  .next (respond (statusWord s) s)

end Sys2Proof.Machine
end

