-- ==== Sys2Proof/Machine/Dispatch.lean ====
section
/-! DEFINITION. The meaning of every command, one arm each (spec/30_encoding.md R63). -/

namespace Sys2Proof.Machine

/-- Execute one decoded command, to completion (spec/00_scope.md R6). -/
def exec (i : Instr) (s : State) : Host.Outcome State Fault Refusal :=
  match i with
  | .aclr => Sys2Proof.Machine.execAclr s
  | .upd imm => Sys2Proof.Machine.execUpd imm s
  | .dgst => Sys2Proof.Machine.execDgst s
  | .rdh imm => Sys2Proof.Machine.execRdh imm s
  | .stat => Sys2Proof.Machine.execStat s
  | .clra => Sys2Proof.Machine.execClra s
  | .clrb => Sys2Proof.Machine.execClrb s
  | .lda imm => Sys2Proof.Machine.execLda imm s
  | .ldb imm => Sys2Proof.Machine.execLdb imm s
  | .mva => Sys2Proof.Machine.execMva s
  | .mvb => Sys2Proof.Machine.execMvb s
  | .cmp => Sys2Proof.Machine.execCmp s

end Sys2Proof.Machine
end

