-- ==== Sys2Proof/Machine/Port.lean ====
section
/-! DEFINITION. The command port, as far as a step needs it: taking the host's next event, waiting for one, and refusing a word that
is no command (spec/30_encoding.md R64, 60_exceptions.md R152). -/

namespace Sys2Proof.Machine

/-- The host has issued its next event; `rest` is what it has yet to issue. -/
def issued (rest : List HostEvent) (s : State) : State :=
  { s with script := rest }

/-- No event: "the engine is idle between commands and holds all its state" (60_exceptions.md R163; 10_state.md R24). -/
def idle (s : State) : State :=
  s

/-- A word that is no command, for whichever reason: `IllegalCommand` (R152); "The word is discarded". -/
def takeIllegal (_why : IllegalWord) (s : State) : State :=
  raise .illegalCommand s

end Sys2Proof.Machine
end

