-- ==== Sys2Proof/Machine/Step.lean ====
section
/-! DEFINITION. One step of the machine: the next event of the host (spec/00_scope.md R6, 70_reset_and_hazards.md R170, R181). -/

namespace Sys2Proof.Machine

/-- Execute one command word that the host has issued: decoding comes first, and a word that does not decode raises
`IllegalCommand` and nothing else (60_exceptions.md R152, R157). -/
def execWord (w : CommandWord) (s : State) : Host.Outcome State Fault Refusal :=
  match decode w with
  | .ok i => exec i s
  | .error why => .next (takeIllegal why s)

/-- One step. The engine takes the host's next event; with none it is idle and holds all its state (60_exceptions.md R163,
log entry 3). -/
def step (s : State) : Host.Outcome State Fault Refusal :=
  match s.script with
  | [] => .next (idle s)
  | .reset :: rest => .next (takeReset (issued rest s))
  | .command w :: rest => execWord w (issued rest s)

/-- `s` with the word of `nbits` bits of `w` as the host's next command (log entry 4). -/
def State.withFetchWord (s : State) (nbits w : Nat) : State :=
  { s with script := .command (BitVec.ofNat 16 (w % 2 ^ nbits)) :: s.script }

end Sys2Proof.Machine
end

