-- ==== Sys2Proof/Machine/Assembler.lean ====
section
/-! DEFINITION. The written forms: pseudo-instructions (spec/30_encoding.md R70), one line of assembler text (R69) and the hexadecimal
rendering of a digest (R72). The engine does none of this; the host and the spec's examples do. Text is a list of characters. -/

namespace Sys2Proof.Machine

/-- The commands a pseudo-instruction expands to, in order (R70). -/
def expand : Pseudo → List Instr
  | .update bs => bs.map .upd
  | .loada bs => .clra :: bs.map .lda
  | .loadb bs => .clrb :: bs.map .ldb
  | .new => [.aclr]

/-! ### Digits (R72) -/

/-- The lower-case hexadecimal digit of a number 0 to 15. -/
def hexDigit (n : Nat) : Char :=
  ['0', '1', '2', '3', '4', '5', '6', '7', '8', '9', 'a', 'b', 'c', 'd', 'e', 'f'].getD n '0'

/-- A byte "as two hexadecimal digits, the high nibble first". -/
def hexByte (b : Byte) : List Char :=
  [hexDigit (b.toNat / 16), hexDigit (b.toNat % 16)]

/-- A digest as 64 digits, "byte 0 of the digest first" (R72). -/
def renderDigest (d : Vector Byte 32) : List Char :=
  (d.toList.map hexByte).flatten

/-- The value of a hexadecimal digit, "either case accepted on input". -/
def hexValue (c : Char) : Option Nat :=
  if 48 ≤ c.toNat ∧ c.toNat ≤ 57 then some (c.toNat - 48)
  else if 97 ≤ c.toNat ∧ c.toNat ≤ 102 then some (c.toNat - 87)
  else if 65 ≤ c.toNat ∧ c.toNat ≤ 70 then some (c.toNat - 55)
  else none

/-- The value of a decimal digit. -/
def decValue (c : Char) : Option Nat :=
  if 48 ≤ c.toNat ∧ c.toNat ≤ 57 then some (c.toNat - 48) else none

/-- The bytes that pairs of hexadecimal digits at the head of a text spell, and the rest of the text. -/
def hexBytes : List Char → List Byte × List Char
  | c :: d :: rest =>
    match hexValue c, hexValue d with
    | some h, some l =>
      let (bs, rest') := hexBytes rest
      (BitVec.ofNat 8 (16 * h + l) :: bs, rest')
    | _, _ => ([], c :: d :: rest)
  | cs => ([], cs)

/-- The number the digits at the head of a text spell in a base, given the number before them. -/
def digits (value : Char → Option Nat) (base : Nat) : Nat → List Char → Nat × List Char
  | n, [] => (n, [])
  | n, c :: rest =>
    match value c with
    | some v => digits value base (base * n + v) rest
    | none => (n, c :: rest)

/-! ### One line (R69) -/

/-- Blanks separate the parts of a line. -/
def isBlank (c : Char) : Bool :=
  c == ' ' || c == '\t'

/-- A text without the blanks at its head. -/
def skipBlanks (cs : List Char) : List Char :=
  cs.dropWhile isBlank

/-- Nothing more on the line: "A `;` starts a comment to the end of the line". -/
def atEnd (cs : List Char) : Bool :=
  match skipBlanks cs with
  | [] => true
  | c :: _ => c == ';'

/-- A number that fits in the immediate byte (R61). -/
def asByte (n : Nat) (rest : List Char) : Option (Byte × List Char) :=
  if n < 256 then some (BitVec.ofNat 8 n, rest) else none

/-- An immediate: "decimal, as `0x` hexadecimal, or as one printable ASCII character in single quotes". -/
def immediate (cs : List Char) : Option (Byte × List Char) :=
  match cs with
  | '\'' :: c :: '\'' :: rest => if 32 ≤ c.toNat ∧ c.toNat ≤ 126 then asByte c.toNat rest else none
  | '0' :: 'x' :: c :: rest =>
    match hexValue c with
    | some v => let (n, rest') := digits hexValue 16 v rest; asByte n rest'
    | none => none
  | c :: rest =>
    match decValue c with
    | some v => let (n, rest') := digits decValue 10 v rest; asByte n rest'
    | none => none
  | [] => none

/-- The UTF-8 encoding of one character (20_memory.md R44, 30_encoding.md R70). -/
def utf8 (c : Char) : List Byte :=
  let n := c.toNat
  let tail (k : Nat) : Byte := BitVec.ofNat 8 (128 + n / 64 ^ k % 64)
  if n < 128 then [BitVec.ofNat 8 n]
  else if n < 2048 then [BitVec.ofNat 8 (192 + n / 64), tail 0]
  else if n < 65536 then [BitVec.ofNat 8 (224 + n / 4096), tail 1, tail 0]
  else [BitVec.ofNat 8 (240 + n / 262144), tail 2, tail 1, tail 0]

/-- A quoted text, its opening quote already read: one item per byte of its UTF-8 encoding. -/
def quoted : List Char → Option (List Byte × List Char)
  | [] => none
  | '"' :: rest => some ([], rest)
  | c :: rest =>
    match quoted rest with
    | some (bs, rest') => some (utf8 c ++ bs, rest')
    | none => none

/-- Immediates separated by commas; the fuel is the length of the line. -/
def immediates : Nat → List Char → Option (List Byte)
  | 0, _ => none
  | fuel + 1, cs =>
    match immediate (skipBlanks cs) with
    | none => none
    | some (b, rest) =>
      match skipBlanks rest with
      | ',' :: more => (immediates fuel more).map (b :: ·)
      | rest => if atEnd rest then some [b] else none

/-- A command without an immediate: nothing else on the line. -/
def plain (i : Instr) (cs : List Char) : Option (List Instr) :=
  if atEnd cs then some [i] else none

/-- A command with one immediate. -/
def withImm (f : Byte → Instr) (cs : List Char) : Option (List Instr) :=
  match immediate (skipBlanks cs) with
  | some (b, rest) => if atEnd rest then some [f b] else none
  | none => none

/-- A pseudo-instruction whose operand is written in hexadecimal. -/
def withHex (f : List Byte → Pseudo) (cs : List Char) : Option (List Instr) :=
  let (bs, rest) := hexBytes (skipBlanks cs)
  if atEnd rest then some (expand (f bs)) else none

/-- The operands of `UPDATE`: a quoted text, a list of immediates, or none. -/
def updateOperands (cs : List Char) : Option (List Byte) :=
  match skipBlanks cs with
  | '"' :: rest =>
    match quoted rest with
    | some (bs, rest') => if atEnd rest' then some bs else none
    | none => none
  | cs => if atEnd cs then some [] else immediates cs.length cs

/-- One line, assembled: "the mnemonic of rule R63 in upper case, then, for `UPD`, `LDA`, `LDB`, `RDH`, one immediate" (R69), or a
pseudo-instruction (R70), or nothing. -/
def assembleLine (line : List Char) : Option (List Instr) :=
  let cs := skipBlanks line
  let name := cs.takeWhile fun c => !isBlank c && c != ';'
  let rest := cs.drop name.length
  match name with
  | [] => some []
  | ['A', 'C', 'L', 'R'] => plain .aclr rest
  | ['U', 'P', 'D'] => withImm .upd rest
  | ['D', 'G', 'S', 'T'] => plain .dgst rest
  | ['R', 'D', 'H'] => withImm .rdh rest
  | ['S', 'T', 'A', 'T'] => plain .stat rest
  | ['C', 'L', 'R', 'A'] => plain .clra rest
  | ['C', 'L', 'R', 'B'] => plain .clrb rest
  | ['L', 'D', 'A'] => withImm .lda rest
  | ['L', 'D', 'B'] => withImm .ldb rest
  | ['M', 'V', 'A'] => plain .mva rest
  | ['M', 'V', 'B'] => plain .mvb rest
  | ['C', 'M', 'P'] => plain .cmp rest
  | ['N', 'E', 'W'] => if atEnd rest then some (expand .new) else none
  | ['U', 'P', 'D', 'A', 'T', 'E'] => (updateOperands rest).map fun bs => expand (.update bs)
  | ['L', 'O', 'A', 'D', 'A'] => withHex .loada rest
  | ['L', 'O', 'A', 'D', 'B'] => withHex .loadb rest
  | _ => none

/-- A command as a line of text, its immediate in hexadecimal. -/
def lineOf : Instr → List Char
  | .aclr => ['A', 'C', 'L', 'R']
  | .upd imm => ['U', 'P', 'D', ' ', '0', 'x'] ++ hexByte imm
  | .dgst => ['D', 'G', 'S', 'T']
  | .rdh imm => ['R', 'D', 'H', ' ', '0', 'x'] ++ hexByte imm
  | .stat => ['S', 'T', 'A', 'T']
  | .clra => ['C', 'L', 'R', 'A']
  | .clrb => ['C', 'L', 'R', 'B']
  | .lda imm => ['L', 'D', 'A', ' ', '0', 'x'] ++ hexByte imm
  | .ldb imm => ['L', 'D', 'B', ' ', '0', 'x'] ++ hexByte imm
  | .mva => ['M', 'V', 'A']
  | .mvb => ['M', 'V', 'B']
  | .cmp => ['C', 'M', 'P']

end Sys2Proof.Machine
end

