-- ==== Sys2Proof/Safety.lean ====
section
/-! DEFINITION. The terms in which claims about the machine are made: runs, the invariant of reachable states
(spec/10_state.md R15, R16, R20, 41_accumulator.md R97), the clean run (60_exceptions.md R158), and the source's algorithm in unbounded
numbers, against which the machine is compared (00_scope.md R5). -/

namespace Sys2Proof.Machine

/-- `k` steps, stopping at the first that answers no next state. -/
def stepN : Nat → State → Host.Outcome State Fault Refusal
  | 0, s => .next s
  | k + 1, s =>
    match step s with
    | .next t => stepN k t
    | .fault r => .fault r
    | .refused r => .refused r

/-- `s` where the host issues the words `ws` next, in order (70_reset_and_hazards.md R181). -/
def issue (ws : List CommandWord) (s : State) : State :=
  { s with script := ws.map .command ++ s.script }

/-- `UPDATE bs` (30_encoding.md R70): one `UPD` per byte, in order. -/
def updates (bs : List Byte) : List CommandWord :=
  bs.map fun b => encode (.upd b)

/-- The word is a `UPD`. -/
def isUpdate (w : CommandWord) : Bool :=
  match decode w with
  | .ok (.upd _) => true
  | _ => false

/-- The sum of the slots of the histogram, in unbounded naturals. -/
def Accumulator.slotSum {n : Nat} (a : Accumulator n) : Nat :=
  (a.acc.toList.map BitVec.toNat).sum

/-- The accumulator's invariant: the presence flags are the low min(`COUNT`, 4) (R16), an absent symbol reads as 0x00 (R15),
and the slots add up to `total(COUNT)` (R97). -/
abbrev Accumulator.Inv {n : Nat} (a : Accumulator n) : Prop :=
  (∀ k : Fin 4, present a.p k.val = decide (k.val < a.count.toNat)) ∧
  (∀ k : Fin 4, present a.p k.val = false → a.w[k.val] = 0#8) ∧
  a.slotSum = total a.count.toNat

/-- "Bytes of a buffer at positions `LA` and above read as 0x00" (R20). -/
abbrev OperandBuffer.Inv (b : OperandBuffer) : Prop :=
  ∀ k : Fin 32, b.len.toNat ≤ k.val → b.bytes[k.val] = 0#8

/-- The invariant of the machine: every reachable state has it. -/
abbrev State.Inv (s : State) : Prop :=
  s.accum.Inv ∧ s.opA.Inv ∧ s.opB.Inv

/-- The ROMs hold the contents the spec gives them (R11, R13). -/
abbrev State.RomsIntact (s : State) : Prop :=
  s.tran = Config.tran ∧ s.popc = Config.popc

/-- No error has occurred since reset (R22, R158): the premise of a claim about a clean run. -/
abbrev State.Clean (s : State) : Prop :=
  s.fault = 0#3

/-- The number of positions in which two digests differ, counted bit by bit (43_comparator.md R128). -/
def hamming (a b : Vector Byte 32) : Nat :=
  ((List.range 256).filter fun i =>
    (at5 a (BitVec.ofNat 5 (i / 8))).getLsbD (i % 8) != (at5 b (BitVec.ofNat 5 (i / 8))).getLsbD (i % 8)).length

end Sys2Proof.Machine

/-! The source's algorithm, in unbounded integers: no counter width, no presence flags, no wrapping before the last step. -/
namespace Sys2Proof.Source

/-- Entry `i` of the substitution table as a number. -/
def sub (t : TranTable) (i : Nat) : Nat :=
  (t.toList.map BitVec.toNat).getD i 0

/-- The inner loop of the generator of 10_state.md R12: step `j` until it is not among the entries made so far. The fuel is the number of
byte values, which is enough: at most 255 entries have been made. -/
def firstUnused (made : List Nat) : (fuel : Nat) → (j : Nat) → Nat
  | 0, j => j
  | fuel + 1, j => if made.contains j then firstUnused made fuel ((j + 1) % 256) else j

/-- `m` entries of the generator of R12 (b), latest first, with the `j` it stands at. -/
def generate : Nat → List Nat × Nat
  | 0 => ([], 0)
  | m + 1 =>
    let (made, j) := generate m
    let doubled := (j * 53 + 1) % 256 + (j * 53 + 1) % 256
    let folded := if doubled > 255 then doubled - 255 else doubled
    let entry := firstUnused made 256 folded
    (entry :: made, entry)

/-- The formula of 40_mixer.md R80, in ordinary integers with one reduction at the end. -/
def mix (t : TranTable) (a b c n : Nat) : Nat :=
  ((sub t ((a + n) % 256) ^^^ (sub t b * (2 * n + 1))) + sub t (c ^^^ sub t n)) % 256

/-- The slots one symbol increments, given the symbols before it, newest first (41_accumulator.md R91, R93). -/
def slots (t : TranTable) (sym : Nat) : List Nat → List Nat
  | w0 :: w1 :: older =>
    mix t sym w0 w1 0 ::
      match older with
      | [] => []
      | w2 :: oldest =>
        mix t sym w0 w2 1 :: mix t sym w1 w2 2 ::
          match oldest with
          | [] => []
          | w3 :: _ =>
            [mix t sym w0 w3 3, mix t sym w1 w3 4, mix t sym w2 w3 5, mix t w3 w0 sym 6, mix t w3 w2 sym 7]
  | _ => []

/-- Every slot the rest of a stream increments, in order, given what came before, newest first. -/
def increments (t : TranTable) : (before : List Nat) → (stream : List Nat) → List Nat
  | _, [] => []
  | before, sym :: rest => slots t sym before ++ increments t (sym :: before) rest

/-- The histogram of a stream: how often slot `i` is incremented. -/
def histogram (t : TranTable) (stream : List Nat) (i : Nat) : Nat :=
  (increments t [] stream).count i

/-- The scalar `total` (42_digest_builder.md R111), row by row. -/
def total : Nat → Nat
  | 0 => 0
  | 1 => 0
  | 2 => 0
  | 3 => 1
  | 4 => 4
  | c => 8 * c - 28

/-- Digest bit `i`: "`histogram[i] > threshold`", the threshold "`total / 256` (real-valued division, not integer truncation)" (R113). -/
def digestBit (t : TranTable) (stream : List Nat) (i : Nat) : Prop :=
  (total stream.length : ℚ) / 256 < (histogram t stream i : ℚ)

end Sys2Proof.Source
end

