-- ==== Sys2Proof/Certificates/Slice0/Obligations.lean ====
section
/-! DEFINITION. The statements of the certificate. Each docstring says which rule of spec/ it formalises. Responses stand latest first;
`COUNT` has 32 bits, so its top is 2^32 - 1. -/

open Sys2Proof Sys2Proof.Machine

/-! ### Encoding (spec/30_encoding.md) -/

/-- R60 to R63, both directions: the decoder reads back every encoded command with every value of its immediate, and each
decoded word is the encoding of what it decodes to. -/
def Obligations.DecodeAndEncodeAgree : Prop :=
  (∀ i : Instr, decode (encode i) = .ok i) ∧
  (∀ (w : CommandWord) (i : Instr), decode w = .ok i → encode i = w)

/-- R62: a word is a command exactly when it passes the three checks, exactly when it matches a row of the opcode table in match and
mask form; then it matches one row only, and that row carries the mnemonic of the command. -/
def Obligations.DecodingIsStrictAndTotal : Prop :=
  ∀ w : CommandWord,
    ((∃ i, decode w = .ok i) ↔ (RawCommand.ofWord w).wf = true) ∧
    ((∃ i, decode w = .ok i) ↔ ∃ r ∈ opcodeRows, r.matches w = true) ∧
    (∀ r ∈ opcodeRows, ∀ r' ∈ opcodeRows, r.matches w = true → r'.matches w = true → r = r') ∧
    (∀ i, decode w = .ok i → ∀ r ∈ opcodeRows, r.matches w = true → r.mnemonic = i.mnemonic)

/-- R63 and R61: the column "Word" of the opcode map, for every immediate. -/
def Obligations.TableWordsDecode : Prop :=
  decode 0x1000#16 = .ok .aclr ∧
  (∀ imm : Byte, decode (0x2000#16 + imm.setWidth 16) = .ok (.upd imm)) ∧
  decode 0x3000#16 = .ok .dgst ∧
  (∀ imm : Byte, decode (0x4000#16 + imm.setWidth 16) = .ok (.rdh imm)) ∧
  decode 0x5000#16 = .ok .stat ∧
  decode 0x6000#16 = .ok .clra ∧
  decode 0x7000#16 = .ok .clrb ∧
  (∀ imm : Byte, decode (0x8000#16 + imm.setWidth 16) = .ok (.lda imm)) ∧
  (∀ imm : Byte, decode (0x9000#16 + imm.setWidth 16) = .ok (.ldb imm)) ∧
  decode 0xA000#16 = .ok .mva ∧
  decode 0xB000#16 = .ok .mvb ∧
  decode 0xC000#16 = .ok .cmp

/-- R64 and R152: the words that are illegal, by class, and what one of them does: `IllegalCommand` and nothing else. Every
word outside the classes is a command; the all-zero and the all-ones word are illegal. -/
def Obligations.IllegalWordsRaiseIllegalCommand : Prop :=
  ∀ (s : State) (w : CommandWord) (rest : List HostEvent), s.script = .command w :: rest →
    ((w.extractLsb' 12 4 = 0x0#4 ∨ w.extractLsb' 12 4 = 0xD#4 ∨ w.extractLsb' 12 4 = 0xE#4 ∨ w.extractLsb' 12 4 = 0xF#4 ∨
      w.extractLsb' 8 4 ≠ 0#4 ∨
      (w.extractLsb' 12 4 ∈ [0x1#4, 0x3#4, 0x5#4, 0x6#4, 0x7#4, 0xA#4, 0xB#4, 0xC#4] ∧ w.extractLsb' 0 8 ≠ 0#8) ∨
      w = 0x0000#16 ∨ w = 0xFFFF#16) →
      step s = .next { s with
        script := rest
        fault := s.fault ||| 0b010#3
        responses := ⟨.illegalCommand, 0⟩ :: s.responses }) ∧
    ((∃ i, decode w = .ok i) ∨
      w.extractLsb' 12 4 = 0x0#4 ∨ w.extractLsb' 12 4 = 0xD#4 ∨ w.extractLsb' 12 4 = 0xE#4 ∨ w.extractLsb' 12 4 = 0xF#4 ∨
      w.extractLsb' 8 4 ≠ 0#4 ∨
      (w.extractLsb' 12 4 ∈ [0x1#4, 0x3#4, 0x5#4, 0x6#4, 0x7#4, 0xA#4, 0xB#4, 0xC#4] ∧ w.extractLsb' 0 8 ≠ 0#8))

/-- R69: every command written as a line of text assembles back to that command, at every value of its immediate; and the rule's own
examples. -/
def Obligations.AssemblerReadsBackEveryCommand : Prop :=
  (∀ i : Instr, assembleLine (lineOf i) = some [i]) ∧
  (assembleLine ['U', 'P', 'D', ' ', '\'', 'T', '\'']).map (List.map encode) = some [0x2054#16] ∧
  (assembleLine ['R', 'D', 'H', ' ', '0', 'x', '3', '1']).map (List.map encode) = some [0x4031#16] ∧
  (assembleLine ['C', 'M', 'P']).map (List.map encode) = some [0xC000#16]

/-- R70: the expansions. -/
def Obligations.PseudoInstructionsExpand : Prop :=
  (∀ bs, expand (.update bs) = bs.map .upd) ∧
  (∀ bs, expand (.loada bs) = .clra :: bs.map .lda) ∧
  (∀ bs, expand (.loadb bs) = .clrb :: bs.map .ldb) ∧
  expand .new = [.aclr] ∧
  (∀ bs bs', expand (.update (bs ++ bs')) = expand (.update bs) ++ expand (.update bs'))

/-- R72: a digest is rendered as 64 digits, and the digits spell its 32 bytes, byte 0 first. -/
def Obligations.HexRenderingSpellsTheDigest : Prop :=
  ∀ d : Vector Byte 32, (renderDigest d).length = 64 ∧ hexBytes (renderDigest d) = (d.toList, [])

/-! ### A step (00_scope.md R6, 70_reset_and_hazards.md R181) -/

/-- A step runs the decoded command: when the host's next event is a word that decodes to `i`, the step is `exec i` once the
event is taken; and `withFetchWord` makes a word that next event. -/
def Obligations.StepRunsTheDecodedCommand : Prop :=
  (∀ (s : State) (w : CommandWord) (rest : List HostEvent) (i : Instr),
    s.script = .command w :: rest → decode w = .ok i → step s = exec i { s with script := rest }) ∧
  (∀ (s : State) (w : CommandWord) (i : Instr), decode w = .ok i → step (s.withFetchWord 16 w.toNat) = exec i s)

/-- R163 and R24: with no event the engine is idle and holds all its state (log entry 3). -/
def Obligations.NoEventNoChange : Prop :=
  ∀ s : State, s.script = [] → step s = .next s

/-- R66: every command word, legal or not, gets exactly one response; an error's payload is zero (R68), and the response reads as the
260-bit value the rule lays out, with the codes of R67. The first clause is for every state: with a word by R66, with the reset event by
R170, and with no event it is the model's choice that the step answers the same state (log entry 3). -/
def Obligations.EveryCommandGetsOneResponse : Prop :=
  (∀ s : State, ∃ t, step s = .next t) ∧
  (∀ (s : State) (w : CommandWord) (rest : List HostEvent), s.script = .command w :: rest →
    ∃ t r, step s = .next t ∧ t.script = rest ∧ t.responses = r :: s.responses ∧ (r.status ≠ .ok → r.payload = 0)) ∧
  (∀ r : Response, r.bits.extractLsb' 256 4 = r.status.code ∧ r.bits.extractLsb' 0 256 = r.payload)

/-! ### Reset (10_state.md R25, 70_reset_and_hazards.md R170, R172) -/

/-- R25, row by row; the reset event of R170 leaves it, and `ACLR` its accumulator part. The host's own lists are put aside (log entry 13). -/
def Obligations.ResetValues : Prop :=
  State.reset.tran = Config.tran ∧ State.reset.popc = Config.popc ∧
  (∀ i, at8 State.reset.accum.acc i = 0) ∧
  State.reset.accum.p = 0b0000#4 ∧
  (∀ k : Fin 4, State.reset.accum.w[k.val] = 0x00#8) ∧
  State.reset.accum.count = 0 ∧
  (∀ j, at5 State.reset.dg j = 0x00#8) ∧
  (∀ j, at5 State.reset.opA.bytes j = 0x00#8) ∧ (∀ j, at5 State.reset.opB.bytes j = 0x00#8) ∧
  State.reset.opA.len = 0 ∧ State.reset.opB.len = 0 ∧
  State.reset.fault = 0b000#3 ∧
  (∀ (s : State) (rest : List HostEvent), s.script = .reset :: rest → s.RomsIntact →
    ∃ t, step s = .next t ∧ { t with script := [], responses := [] } = State.reset) ∧
  (∀ s : State, ∃ t, exec .aclr s = .next t ∧ t.accum = State.reset.accum)

/-- R170: the reset event gives every register its reset value from any state; the ROMs are not written (R12), the host gets no response
(R182). That the host's own lists stay is the model's choice (log entry 13). -/
def Obligations.ResetEventRestoresResetValues : Prop :=
  ∀ (s : State) (rest : List HostEvent), s.script = .reset :: rest →
    step s = .next
      { tran := s.tran, popc := s.popc, accum := State.reset.accum, dg := State.reset.dg, opA := State.reset.opA,
        opB := State.reset.opB, fault := State.reset.fault, script := rest, responses := s.responses }

/-- R172: what each command does immediately after reset. -/
def Obligations.CommandsImmediatelyAfterReset : Prop :=
  exec .dgst State.reset = .next { State.reset with responses := [⟨.ok, 0⟩] } ∧
  (∀ i, exec (.rdh i) State.reset = .next { State.reset with responses := [⟨.ok, 0⟩] }) ∧
  exec .stat State.reset = .next { State.reset with responses := [⟨.ok, 0⟩] } ∧
  exec .cmp State.reset = .next { State.reset with fault := 0b001#3, responses := [⟨.invalidDigestLength, 0⟩] } ∧
  (∃ t, stepN 3 (issue [encode .mva, encode .mvb, encode .cmp] State.reset) = .next t ∧
    t.responses = [⟨.ok, 128⟩, ⟨.ok, 0⟩, ⟨.ok, 0⟩]) ∧
  (∀ b, exec (.upd b) State.reset = .next
    { State.reset with
      accum := { State.reset.accum with w := #v[b, 0#8, 0#8, 0#8], p := 0b0001#4, count := 1 }
      responses := [⟨.ok, 0⟩] })

/-! ### Invariants (10_state.md R14 to R20, 41_accumulator.md R97) -/

/-- The invariant, the ROM contents and `FAULT = 0` hold at reset (R25). -/
def Obligations.InvariantHoldsAtReset : Prop :=
  State.reset.Inv ∧ State.reset.RomsIntact ∧ State.reset.Clean

/-- R15, R16, R20, R97: every step from every state that has the invariant gives one that has it: presence flags the low min(`COUNT`, 4),
absent symbols and unloaded bytes 0x00, the slots adding up to `total(COUNT)`. -/
def Obligations.EveryStepKeepsTheInvariant : Prop :=
  ∀ s t : State, s.Inv → step s = .next t → t.Inv

/-- R97 for every `CNT_W` (the open parameter, 92_eei_decisions.md D4): the empty accumulator has the invariant, and a symbol consumed
below the top keeps it. -/
def Obligations.InvariantForEveryCounterWidth : Prop :=
  ∀ n : Nat, (Accumulator.empty n).Inv ∧
    ∀ (t : TranTable) (b : Byte) (a : Accumulator n), a.Inv → a.atTop = false →
      (a.consume t b).Inv ∧ (a.consume t b).count.toNat = a.count.toNat + 1

/-- R14, R97 (c): no slot can overflow: each is at most `total(COUNT)`, which fits in `CNT_W` + 3 bits, for every `CNT_W`. -/
def Obligations.NoSlotOverflows : Prop :=
  ∀ (n : Nat) (a : Accumulator n), a.Inv →
    (∀ i, (at8 a.acc i).toNat ≤ total a.count.toNat) ∧ total a.count.toNat < 2 ^ (n + 3)

/-- R97 (d): between two emptyings no slot ever decreases: no word but `ACLR` lowers one. -/
def Obligations.SlotsNeverDecrease : Prop :=
  ∀ (s t : State) (w : CommandWord) (rest : List HostEvent), s.Inv → s.script = .command w :: rest →
    decode w ≠ .ok .aclr → step s = .next t →
    ∀ i, (at8 s.accum.acc i).toNat ≤ (at8 t.accum.acc i).toNat

/-- R17: `UPD` adds exactly 1 and never wraps, `ACLR` and reset set 0, nothing else writes `COUNT`. -/
def Obligations.CountIsWrittenOnlyByUpdAclrAndReset : Prop :=
  (∀ (s : State) (w : CommandWord) (rest : List HostEvent), s.script = .command w :: rest → ∃ t, step s = .next t ∧
    (decode w = .ok .aclr → t.accum.count = 0) ∧
    (∀ b, decode w = .ok (.upd b) → s.accum.count.toNat < 2 ^ 32 - 1 → t.accum.count.toNat = s.accum.count.toNat + 1) ∧
    (∀ b, decode w = .ok (.upd b) → s.accum.count.toNat = 2 ^ 32 - 1 → t.accum.count = s.accum.count) ∧
    (decode w ≠ .ok .aclr → (∀ b, decode w ≠ .ok (.upd b)) → t.accum.count = s.accum.count)) ∧
  (∀ (s : State) (rest : List HostEvent), s.script = .reset :: rest → ∃ t, step s = .next t ∧ t.accum.count = 0)

/-- R18 and the column "Written by" of R10, as a frame over all twelve commands: which command may write what. The two ROMs and
what the host has yet to issue stay, and one response is added. And over every event: the accumulator's registers change by
`UPD`, `ACLR` and reset only. -/
def Obligations.EachCommandWritesOnlyItsOwnRegisters : Prop :=
  (∀ (i : Instr) (s : State), ∃ t r, exec i s = .next t ∧
    (i ≠ .aclr → (∀ b, i ≠ .upd b) → t.accum = s.accum) ∧
    (i ≠ .dgst → t.dg = s.dg) ∧
    (i ≠ .clra → (∀ v, i ≠ .lda v) → i ≠ .mva → t.opA = s.opA) ∧
    (i ≠ .clrb → (∀ v, i ≠ .ldb v) → i ≠ .mvb → t.opB = s.opB) ∧
    (i ≠ .cmp → (∀ b, i ≠ .upd b) → t.fault = s.fault) ∧
    t.tran = s.tran ∧ t.popc = s.popc ∧ t.script = s.script ∧ t.responses = r :: s.responses) ∧
  (∀ s t : State, step s = .next t → t.accum = s.accum ∨ (∃ rest, s.script = .reset :: rest) ∨
    ∃ w rest, s.script = .command w :: rest ∧ (decode w = .ok .aclr ∨ ∃ b, decode w = .ok (.upd b)))

/-! ### The mixer (40_mixer.md) -/

/-- R80: the formula in ordinary integers with one reduction at the end, XOR before the addition, for every table; and wrapping the
product to 8 bits first gives the same (R82). -/
def Obligations.MixIsTheSourcesFormula : Prop :=
  ∀ (t : TranTable) (a b c : Byte) (n : Fin 8),
    let x := (at8 t (BitVec.ofNat 8 ((a.toNat + n.val) % 256))).toNat
    let y := (at8 t b).toNat
    let z := (at8 t (c ^^^ at8 t (BitVec.ofNat 8 n.val))).toNat
    (mix t a b c n).toNat = ((x ^^^ (y * (2 * n.val + 1))) + z) % 256 ∧
    (mix t a b c n).toNat = ((x ^^^ (y * (2 * n.val + 1) % 256)) + z) % 256

/-- R101: when the table is a permutation (R12), for fixed `a`, `b`, `n` every slot is the mixer output of exactly one `c`; and the
table of R11 is a permutation. -/
def Obligations.EverySlotCanBeSelected : Prop :=
  (∀ (t : TranTable) (a b : Byte) (n : Fin 8), Function.Injective (at8 t) →
    Function.Bijective fun c => mix t a b c n) ∧
  Function.Injective (at8 Config.tran)

/-- R12: `TRAN` (a) is a permutation of the byte values, (b) equals the output of the generator, and (c) is written by no step, whatever
event it takes, and no command but `UPD`, which uses the mixer, reads it; the table of R11 is the one the reset state holds. -/
def Obligations.TranIsAPermutationAndIsNeverWritten : Prop :=
  State.reset.tran = Config.tran ∧
  (∀ v : Byte, ∃! i : Byte, at8 Config.tran i = v) ∧
  Config.tran.toList.map BitVec.toNat = (Source.generate 256).1.reverse ∧
  (∀ s t : State, step s = .next t → t.tran = s.tran) ∧
  (∀ (i : Instr) (s : State) (x : TranTable), (∀ b, i ≠ .upd b) →
    ∃ t, exec i s = .next t ∧ exec i { s with tran := x } = .next { t with tran := x })

/-- R84: the multipliers and the table bytes of the eight mixer indices, as `mix` uses them. -/
def Obligations.MixerConstants : Prop :=
  (List.range 8).map (fun n => at8 Config.tran (BitVec.ofNat 8 n)) =
    [0x02#8, 0xD6#8, 0x9E#8, 0x6F#8, 0xF9#8, 0x1D#8, 0x04#8, 0xAB#8] ∧
  (List.range 8).map (fun n => 2 * n + 1) = [1, 3, 5, 7, 9, 11, 13, 15] ∧
  ∀ (a b c : Byte) (n : Fin 8), mix Config.tran a b c n =
    (at8 Config.tran (a + BitVec.ofNat 8 n.val) ^^^
        at8 Config.tran b * ([1#8, 3#8, 5#8, 7#8, 9#8, 11#8, 13#8, 15#8].getD n.val 0#8)) +
      at8 Config.tran (c ^^^ ([0x02#8, 0xD6#8, 0x9E#8, 0x6F#8, 0xF9#8, 0x1D#8, 0x04#8, 0xAB#8].getD n.val 0#8))

/-! ### The accumulator (41_accumulator.md) -/

/-- R90: `ACLR` empties the accumulator and touches nothing else; it is then as after reset, and on an empty one it changes
nothing. -/
def Obligations.AclrEmptiesTheAccumulator : Prop :=
  decode 0x1000#16 = .ok .aclr ∧
  (∀ s : State, exec .aclr s = .next
    { s with
      accum := { acc := Vector.replicate 256 0, w := Vector.replicate 4 0x00#8, p := 0b0000#4, count := 0 }
      responses := ⟨.ok, 0⟩ :: s.responses }) ∧
  (∀ s : State, exec .aclr s = .next { s with accum := State.reset.accum, responses := ⟨.ok, 0⟩ :: s.responses }) ∧
  (∀ s : State, s.accum = State.reset.accum → exec .aclr s = .next { s with responses := ⟨.ok, 0⟩ :: s.responses })

/-- R91 with R95: at the top of the counter `UPD` raises `CountOverflow`; below it `UPD` completes: the mixer calls the window allows, each
slot +1 one after another, the count, the window and the presence flags; nothing else changes. It is for every state: where a slot holds
its largest value, which no state with the invariant does (`NoSlotOverflows`), the +1 in the width of a slot is the model's choice (log
entry 8). -/
def Obligations.UpdConsumesOneSymbol : Prop :=
  (∀ b : Byte, decode (0x2000#16 + b.setWidth 16) = .ok (.upd b)) ∧
  (∀ (b : Byte) (s : State), s.accum.count.toNat = 2 ^ 32 - 1 → exec (.upd b) s = .next (raise .countOverflow s)) ∧
  ∀ (b : Byte) (s : State), s.accum.count.toNat ≠ 2 ^ 32 - 1 →
    let w := s.accum.w
    let u : List Byte :=
      if present s.accum.p 0 = true ∧ present s.accum.p 1 = true then
        [mix s.tran b w[0] w[1] 0] ++
          (if present s.accum.p 2 = true then
            [mix s.tran b w[0] w[2] 1, mix s.tran b w[1] w[2] 2] ++
              (if present s.accum.p 3 = true then
                [mix s.tran b w[0] w[3] 3, mix s.tran b w[1] w[3] 4, mix s.tran b w[2] w[3] 5,
                 mix s.tran w[3] w[0] b 6, mix s.tran w[3] w[2] b 7]
              else [])
          else [])
      else []
    ∃ t, exec (.upd b) s = .next t ∧
      t = { s with accum := t.accum, responses := ⟨.ok, 0⟩ :: s.responses } ∧
      t.accum.acc = u.foldl (fun acc i => put8 acc i (at8 acc i + 1)) s.accum.acc ∧
      t.accum.count = s.accum.count + 1 ∧
      t.accum.w = #v[b, w[0], w[1], w[2]] ∧
      present t.accum.p 0 = true ∧ present t.accum.p 1 = present s.accum.p 0 ∧
      present t.accum.p 2 = present s.accum.p 1 ∧ present t.accum.p 3 = present s.accum.p 2

/-- R92 and R153: at the top of the counter `UPD` raises `CountOverflow` and changes nothing but `FAULT.COVF`. -/
def Obligations.UpdAtTheTopRaisesCountOverflow : Prop :=
  ∀ (b : Byte) (s : State), s.accum.count.toNat = 2 ^ 32 - 1 →
    exec (.upd b) s = .next
      { s with fault := s.fault ||| 0b100#3, responses := ⟨.countOverflow, 0⟩ :: s.responses }

/-- R93, the table: which slots `UPD` increments, by the old `COUNT`, with the presence pattern of each row; `ACC` is then the old
`ACC` with those slots incremented. -/
def Obligations.UpdSlotsByOldCount : Prop :=
  ∀ (b : Byte) (s : State), s.accum.Inv → s.accum.count.toNat ≠ 2 ^ 32 - 1 →
    let c := s.accum.count.toNat
    let w := s.accum.w
    ∃ t, exec (.upd b) s = .next t ∧
    (c = 0 → s.accum.p = 0b0000#4 ∧ t.accum.acc = s.accum.acc) ∧
    (c = 1 → s.accum.p = 0b0001#4 ∧ t.accum.acc = s.accum.acc) ∧
    (c = 2 → s.accum.p = 0b0011#4 ∧ t.accum.acc = bumpAll s.accum.acc [mix s.tran b w[0] w[1] 0]) ∧
    (c = 3 → s.accum.p = 0b0111#4 ∧ t.accum.acc = bumpAll s.accum.acc
      [mix s.tran b w[0] w[1] 0, mix s.tran b w[0] w[2] 1, mix s.tran b w[1] w[2] 2]) ∧
    (4 ≤ c → s.accum.p = 0b1111#4 ∧ t.accum.acc = bumpAll s.accum.acc
      [mix s.tran b w[0] w[1] 0, mix s.tran b w[0] w[2] 1, mix s.tran b w[1] w[2] 2, mix s.tran b w[0] w[3] 3,
       mix s.tran b w[1] w[3] 4, mix s.tran b w[2] w[3] 5, mix s.tran w[3] w[0] b 6, mix s.tran w[3] w[2] b 7])

/-- R94: "a slot selected j times by one `UPD` gains exactly j (j from 0 to 8)", in unbounded naturals; and the order of the
increments cannot be observed. -/
def Obligations.SlotGainsOncePerSelection : Prop :=
  ∀ (b : Byte) (s : State), s.accum.Inv → s.accum.count.toNat ≠ 2 ^ 32 - 1 →
    ∃ t us, exec (.upd b) s = .next t ∧ us = selectedSlots s.tran b s.accum.w s.accum.p ∧ us.length ≤ 8 ∧
      (∀ i, (at8 t.accum.acc i).toNat = (at8 s.accum.acc i).toNat + us.count i) ∧
      (∀ us' : List Byte, us'.Perm us → t.accum.acc = bumpAll s.accum.acc us')

/-- R98: how many slots a symbol increments depends on the presence flags alone, never on a symbol's value; the stream 00 00 00 from
reset increments the slot of `mix(0, 0, 0, 0)` once and no other. -/
def Obligations.ZeroIsASymbolLikeAnyOther : Prop :=
  (∀ (t t' : TranTable) (b b' : Byte) (w w' : Vector Byte 4) (p : BitVec 4),
    (selectedSlots t b w p).length = (selectedSlots t' b' w' p).length) ∧
  (∃ t, stepN 3 (issue (updates [0x00#8, 0x00#8, 0x00#8]) State.reset) = .next t ∧
    ∀ i, at8 t.accum.acc i = if i = mix Config.tran 0x00#8 0x00#8 0x00#8 0 then 1 else 0)

/-- R99: `RDH` answers the zero-extended slot and writes nothing. -/
def Obligations.RdhReadsOneSlot : Prop :=
  ∀ (i : Byte) (s : State),
    decode (0x4000#16 + i.setWidth 16) = .ok (.rdh i) ∧
    exec (.rdh i) s = .next { s with responses := ⟨.ok, (at8 s.accum.acc i).setWidth 256⟩ :: s.responses }

/-- R97 (a), R15, R16: after `ACLR` and a stream of symbols the count is its length and the window holds its last min(`COUNT`, 4)
symbols, newest in `W[0]`; every register outside the accumulator is as before. -/
def Obligations.WindowHoldsTheLastSymbols : Prop :=
  ∀ (s : State) (bs : List Byte), bs.length < 2 ^ 32 →
    ∃ t, stepN (bs.length + 1) (issue (encode .aclr :: updates bs) s) = .next t ∧
      t.accum.count.toNat = bs.length ∧
      (∀ k : Fin 4, present t.accum.p k.val = decide (k.val < bs.length)) ∧
      (∀ k : Fin 4, t.accum.w[k.val] = bs.reverse.getD k.val 0x00#8) ∧
      t = { s with accum := t.accum, responses := List.replicate (bs.length + 1) ⟨.ok, 0⟩ ++ s.responses }

/-- R96, chunking invariance: any words that are not `ACLR`, issued between the `UPD`s, change nothing the `UPD`s read: issuing all of
them ends with the same accumulator and the same digest as issuing the `UPD`s alone, from any state with the same accumulator and
table. -/
def Obligations.ChunkingInvariance : Prop :=
  ∀ (s s' : State) (ws : List CommandWord), s.accum = s'.accum → s.tran = s'.tran → (∀ w ∈ ws, decode w ≠ .ok .aclr) →
    ∃ t t', stepN ws.length (issue ws s) = .next t ∧
      stepN (ws.filter isUpdate).length (issue (ws.filter isUpdate) s') = .next t' ∧ t.accum = t'.accum ∧
      ∃ u u', exec .dgst t = .next u ∧ exec .dgst t' = .next u' ∧ u.dg = u'.dg ∧ u.responses.head? = u'.responses.head?

/-! ### The digest builder (42_digest_builder.md) -/

/-- R111, the table and the examples. -/
def Obligations.TotalIsThePiecewiseRule : Prop :=
  total 0 = 0 ∧ total 1 = 0 ∧ total 2 = 0 ∧ total 3 = 1 ∧ total 4 = 4 ∧
  (∀ c, 5 ≤ c → total c = 8 * c - 28 ∧ 28 < 8 * c) ∧
  total 5 = 12 ∧ total 19 = 124 ∧ total 21 = 140 ∧ total 35 = 252 ∧ total 36 = 260 ∧
  total (2 ^ 32 - 1) = 34359738332 ∧ 2 ^ 34 ≤ total (2 ^ 32 - 1) ∧ total (2 ^ 32 - 1) < 2 ^ 35

/-- R113: the engine's comparison is `256 × ACC[i] > total`, which is the real-valued one, and the floored one with a strict "greater
than". -/
def Obligations.ThresholdComparisonIsExact : Prop :=
  ∀ t slot : Nat, (aboveMean t slot = true ↔ 256 * slot > t) ∧ (aboveMean t slot = true ↔ (t : ℚ) / 256 < (slot : ℚ)) ∧ (aboveMean t slot = true ↔ t / 256 < slot)

/-- R110, R114, R115: `DGST` completes in every state, writes `DG` only, puts the bit of slot `i` in bit `i mod 8` of
`DG[31 - i / 8]`, and answers the digest, whose bit `i` as one number is that same bit. -/
def Obligations.DgstBuildsAndPacksTheDigest : Prop :=
  decode 0x3000#16 = .ok .dgst ∧
  ∀ s : State, ∃ t, exec .dgst s = .next t ∧
    t = { s with dg := t.dg, responses := ⟨.ok, packDigest t.dg⟩ :: s.responses } ∧
    ∀ i : Byte,
      (at5 t.dg (BitVec.ofNat 5 (31 - i.toNat / 8))).getLsbD (i.toNat % 8) =
        decide (256 * (at8 s.accum.acc i).toNat > total s.accum.count.toNat) ∧
      (packDigest t.dg).getLsbD i.toNat = decide (256 * (at8 s.accum.acc i).toNat > total s.accum.count.toNat)

/-- R43, R68: `DG[0]` is in payload bits 255:248 and `DG[31]` in bits 7:0, each byte whole. -/
def Obligations.DigestByteOrderInThePayload : Prop :=
  ∀ (d : Vector Byte 32) (j : BitVec 5), (packDigest d).extractLsb' (8 * (31 - j.toNat)) 8 = at5 d j

/-- R116: `DGST` leaves the accumulator alone; a second one, with any words but `UPD` and `ACLR` between, returns the same digest; and its
digest depends on the accumulator only, not on earlier digests. -/
def Obligations.DgstIsNonDestructive : Prop :=
  (∀ s : State, ∃ t, exec .dgst s = .next t ∧ t.accum = s.accum) ∧
  (∀ (s : State) (ws : List CommandWord), (∀ w ∈ ws, decode w ≠ .ok .aclr ∧ ∀ b, decode w ≠ .ok (.upd b)) →
    ∃ t u v, exec .dgst s = .next t ∧ stepN ws.length (issue ws t) = .next u ∧ exec .dgst u = .next v ∧
      v.dg = t.dg ∧ v.responses.head? = t.responses.head?) ∧
  (∀ s s' : State, s.accum = s'.accum → ∃ t t', exec .dgst s = .next t ∧ exec .dgst s' = .next t' ∧
    t.dg = t'.dg ∧ t.responses.head? = t'.responses.head?)

/-- R117 (a) to (g), in every state whose accumulator has the invariant. -/
def Obligations.DigestCornerCases : Prop :=
  ∀ s : State, s.accum.Inv →
    let c := s.accum.count.toNat
    let slot : Byte → Nat := fun i => (at8 s.accum.acc i).toNat
    ∃ t, exec .dgst s = .next t ∧
    let bit : Byte → Bool := fun i => (packDigest t.dg).getLsbD i.toNat
    let ones := ((List.range 256).filter fun i => bit (BitVec.ofNat 8 i)).length
    (c ≤ 2 → ∀ j, at5 t.dg j = 0x00#8) ∧
    (c = 3 → ones = 1 ∧ ∀ i, bit i = true ↔ slot i = 1) ∧
    (c = 4 → (∀ i, bit i = true ↔ slot i ≠ 0) ∧ 1 ≤ ones ∧ ones ≤ 4) ∧
    (5 ≤ c ∧ c ≤ 35 → ∀ i, bit i = true ↔ slot i ≠ 0) ∧
    (36 ≤ c → ∀ i, slot i = 1 → bit i = false) ∧
    (∀ i, bit i = true ↔ total c / 256 + 1 ≤ slot i) ∧
    (5 ≤ c → ¬ 256 ∣ total c) ∧
    (∃ i, bit i = false) ∧ (3 ≤ c → ∃ i, bit i = true)

/-- The whole of the source's computation (00_scope.md R5: "the model is exactly the source's algorithm"), for every table: `ACLR`, a stream
shorter than 2^32, `DGST` leaves in `ACC` the source's histogram and in `DG` and the response the source's digest, whatever the state
before. -/
def Obligations.MachineComputesTheSourcesDigest : Prop :=
  ∀ (s : State) (bs : List Byte), bs.length < 2 ^ 32 →
    let stream := bs.map BitVec.toNat
    ∃ t, stepN (bs.length + 2) (issue (encode .aclr :: (updates bs ++ [encode .dgst])) s) = .next t ∧
      (∀ i : Byte, (at8 t.accum.acc i).toNat = Source.histogram s.tran stream i.toNat) ∧
      (∀ i : Byte, (at5 t.dg (BitVec.ofNat 5 (31 - i.toNat / 8))).getLsbD (i.toNat % 8) = true ↔
        Source.digestBit s.tran stream i.toNat) ∧
      t.responses.head? = some ⟨.ok, packDigest t.dg⟩

/-! ### The comparator (43_comparator.md) -/

/-- R13: `POPC[i]` is the number of set bits of `i`; the reset state holds that table, no step writes it, and no command but `CMP` reads
it. -/
def Obligations.PopcCountsSetBits : Prop :=
  State.reset.popc = Config.popc ∧
  (∀ s t : State, step s = .next t → t.popc = s.popc) ∧
  (∀ (i : Instr) (s : State) (x : PopcTable), i ≠ .cmp →
    ∃ t, exec i s = .next t ∧ exec i { s with popc := x } = .next { t with popc := x }) ∧
  ∀ i : Byte, (at8 Config.popc i).toNat =
    (i.getLsbD 0).toNat + (i.getLsbD 1).toNat + (i.getLsbD 2).toNat + (i.getLsbD 3).toNat + (i.getLsbD 4).toNat +
      (i.getLsbD 5).toNat + (i.getLsbD 6).toNat + (i.getLsbD 7).toNat

/-- R120: `CLRA`. -/
def Obligations.ClraEmptiesOperandA : Prop :=
  decode 0x6000#16 = .ok .clra ∧
  ∀ s : State, exec .clra s = .next
    { s with opA := { bytes := Vector.replicate 32 0x00#8, len := 0#6 }, responses := ⟨.ok, 0⟩ :: s.responses }

/-- R121: `CLRB`. -/
def Obligations.ClrbEmptiesOperandB : Prop :=
  decode 0x7000#16 = .ok .clrb ∧
  ∀ s : State, exec .clrb s = .next
    { s with opB := { bytes := Vector.replicate 32 0x00#8, len := 0#6 }, responses := ⟨.ok, 0⟩ :: s.responses }

/-- R122: `LDA` stores at `OPA[LA]` when `LA` < 32, and counts, saturating at 63. -/
def Obligations.LdaAppendsToOperandA : Prop :=
  ∀ (v : Byte) (s : State), decode (0x8000#16 + v.setWidth 16) = .ok (.lda v) ∧
    exec (.lda v) s = .next
      { s with
        opA := { bytes := if h : s.opA.len.toNat < 32 then s.opA.bytes.set s.opA.len.toNat v h else s.opA.bytes
                 len := BitVec.ofNat 6 (min (s.opA.len.toNat + 1) 63) }
        responses := ⟨.ok, 0⟩ :: s.responses }

/-- R123: `LDB` stores at `OPB[LB]` when `LB` < 32, and counts, saturating at 63. -/
def Obligations.LdbAppendsToOperandB : Prop :=
  ∀ (v : Byte) (s : State), decode (0x9000#16 + v.setWidth 16) = .ok (.ldb v) ∧
    exec (.ldb v) s = .next
      { s with
        opB := { bytes := if h : s.opB.len.toNat < 32 then s.opB.bytes.set s.opB.len.toNat v h else s.opB.bytes
                 len := BitVec.ofNat 6 (min (s.opB.len.toNat + 1) 63) }
        responses := ⟨.ok, 0⟩ :: s.responses }

/-- R124: `MVA`; `DG` is unchanged and whatever `LA` was it becomes 32. -/
def Obligations.MvaCopiesTheDigestToOperandA : Prop :=
  decode 0xA000#16 = .ok .mva ∧
  ∀ s : State, exec .mva s = .next
    { s with opA := { bytes := s.dg, len := 32#6 }, responses := ⟨.ok, 0⟩ :: s.responses }

/-- R125: `MVB`. -/
def Obligations.MvbCopiesTheDigestToOperandB : Prop :=
  decode 0xB000#16 = .ok .mvb ∧
  ∀ s : State, exec .mvb s = .next
    { s with opB := { bytes := s.dg, len := 32#6 }, responses := ⟨.ok, 0⟩ :: s.responses }

/-- R122, R123, R20: a clear followed by any number of loads leaves the length min(number, 63), the first 32 bytes in order, 0x00 above
them, and every other register as before. -/
def Obligations.LoadedOperandHoldsTheBytesInOrder : Prop :=
  ∀ (s : State) (bs : List Byte),
    (∃ t, stepN (bs.length + 1) (issue (encode .clra :: bs.map fun v => encode (.lda v)) s) = .next t ∧
      t.opA.len.toNat = min bs.length 63 ∧ (∀ k : Fin 32, t.opA.bytes[k.val] = bs.getD k.val 0x00#8) ∧
      t = { s with opA := t.opA, responses := List.replicate (bs.length + 1) ⟨.ok, 0⟩ ++ s.responses }) ∧
    (∃ t, stepN (bs.length + 1) (issue (encode .clrb :: bs.map fun v => encode (.ldb v)) s) = .next t ∧
      t.opB.len.toNat = min bs.length 63 ∧ (∀ k : Fin 32, t.opB.bytes[k.val] = bs.getD k.val 0x00#8) ∧
      t = { s with opB := t.opB, responses := List.replicate (bs.length + 1) ⟨.ok, 0⟩ ++ s.responses })

/-- R126: with both lengths 32 `CMP` completes, writes nothing, and answers 128 less the sum of the popcounts; with any other lengths it
raises `InvalidDigestLength`. It is for every `POPC`: with a table that is not the ROM's and a sum above 384, the 9-bit narrowing is the
model's choice (log entry 14). -/
def Obligations.CmpAnswersTheScore : Prop :=
  decode 0xC000#16 = .ok .cmp ∧
  (∀ s : State, s.opA.len = 32#6 → s.opB.len = 32#6 →
    exec .cmp s = .next
      { s with responses :=
          ⟨.ok, (BitVec.ofInt 9 (128 - (((List.range 32).map fun k =>
            (at8 s.popc (at5 s.opA.bytes (BitVec.ofNat 5 k) ^^^ at5 s.opB.bytes (BitVec.ofNat 5 k))).toNat).sum : Nat))).signExtend 256⟩
            :: s.responses }) ∧
  (∀ s : State, ¬ (s.opA.len = 32#6 ∧ s.opB.len = 32#6) → exec .cmp s = .next (raise .invalidDigestLength s))

/-- R128 and R129: the payload, read as a signed number, is 128 less the Hamming distance, in [-128, 128]; 128 exactly for equal
digests, -128 exactly when every bit differs, 0 exactly when 128 bits differ. -/
def Obligations.ScoreIs128LessHammingDistance : Prop :=
  ∀ s : State, s.popc = Config.popc → s.opA.len = 32#6 → s.opB.len = 32#6 →
    ∃ p : Payload, exec .cmp s = .next { s with responses := ⟨.ok, p⟩ :: s.responses } ∧
      p.toInt = 128 - (hamming s.opA.bytes s.opB.bytes : Int) ∧
      -128 ≤ p.toInt ∧ p.toInt ≤ 128 ∧
      (p.toInt = 128 ↔ s.opA.bytes = s.opB.bytes) ∧
      (p.toInt = -128 ↔ ∀ k, at5 s.opA.bytes k = ~~~ at5 s.opB.bytes k) ∧
      (p.toInt = 0 ↔ hamming s.opA.bytes s.opB.bytes = 128)

/-- R127: a wrong length on either side, equal or not, fails with `InvalidDigestLength` before anything is computed. -/
def Obligations.CmpRefusesWrongLengths : Prop :=
  ∀ s : State, s.opA.len ≠ 32#6 ∨ s.opB.len ≠ 32#6 →
    exec .cmp s = .next
      { s with fault := s.fault ||| 0b001#3, responses := ⟨.invalidDigestLength, 0⟩ :: s.responses }

/-- R130: what `CMP` answers with both lengths 32 has, for the table of R13, the properties identity, the extremes, symmetry, one less
for each further differing bit (so the parity of the rule), and dependence on the XOR alone; and self-similarity: a digest just built,
moved to both operands, scores 128, for any accumulator. The first clause is for every `POPC`: with a table that is not the ROM's and a
sum above 384, the 9-bit narrowing is the model's choice (log entry 14). -/
def Obligations.ScoreProperties : Prop :=
  (∀ s : State, s.opA.len = 32#6 → s.opB.len = 32#6 → exec .cmp s = .next
    { s with responses := ⟨.ok, scorePayload (score s.popc s.opA.bytes s.opB.bytes)⟩ :: s.responses }) ∧
  (∀ x : Vector Byte 32, score Config.popc x x = 128) ∧
  score Config.popc (Vector.replicate 32 0xFF#8) (Vector.replicate 32 0x00#8) = -128 ∧
  (∀ a b : Vector Byte 32, score Config.popc a b = score Config.popc b a) ∧
  (∀ a b : Vector Byte 32, score Config.popc a b = 128 - (hamming a b : Int)) ∧
  (∀ a b a' b' : Vector Byte 32, (∀ k, at5 a k ^^^ at5 b k = at5 a' k ^^^ at5 b' k) →
    score Config.popc a b = score Config.popc a' b') ∧
  (∀ s : State, s.popc = Config.popc →
    ∃ t, stepN 4 (issue [encode .dgst, encode .mva, encode .mvb, encode .cmp] s) = .next t ∧
      t.responses.head? = some ⟨.ok, 128⟩)

/-- R131: `CMP`, successful or not, leaves both operands, a second one gives the same response, and the accumulator and `DG` are neither
read nor written. -/
def Obligations.CmpLeavesOperandsAndReadsNothingElse : Prop :=
  ∀ (s : State) (a : Accumulator Config.cntW) (d : Vector Byte 32), ∃ t u v r,
    exec .cmp s = .next t ∧ t.responses = r :: s.responses ∧
    t.opA = s.opA ∧ t.opB = s.opB ∧ t.accum = s.accum ∧ t.dg = s.dg ∧
    exec .cmp t = .next u ∧ u = { t with responses := r :: t.responses } ∧
    exec .cmp { s with accum := a, dg := d } = .next v ∧ v = { t with accum := a, dg := d }

/-! ### Status (44_system.md) -/

/-- R140 and R141: `STAT` writes nothing, and its payload has the layout of the table, every bit of it. -/
def Obligations.StatReportsTheSmallRegisters : Prop :=
  decode 0x5000#16 = .ok .stat ∧
  ∀ s : State, ∃ p : Payload, exec .stat s = .next { s with responses := ⟨.ok, p⟩ :: s.responses } ∧
    p.extractLsb' 0 64 = s.accum.count.setWidth 64 ∧
    p.extractLsb' 64 4 = s.accum.p ∧ p.extractLsb' 68 4 = 0 ∧
    p.extractLsb' 72 6 = s.opA.len ∧ p.extractLsb' 78 2 = 0 ∧
    p.extractLsb' 80 6 = s.opB.len ∧ p.extractLsb' 86 2 = 0 ∧
    p.extractLsb' 88 3 = s.fault ∧ p.extractLsb' 91 5 = 0 ∧
    p.extractLsb' 96 8 = s.accum.w[0] ∧ p.extractLsb' 104 8 = s.accum.w[1] ∧
    p.extractLsb' 112 8 = s.accum.w[2] ∧ p.extractLsb' 120 8 = s.accum.w[3] ∧
    p.extractLsb' 128 128 = 0 ∧
    (s.accum.Inv → ∀ k : Fin 4, present s.accum.p k.val = false → p.extractLsb' (96 + 8 * k.val) 8 = 0x00#8)

/-! ### Errors (60_exceptions.md) -/

/-- R154: whatever command raised it, an error makes none of the command's writes, sets its own `FAULT` bit, and answers its code with an
all-zero payload. -/
def Obligations.ErrorEntryChangesOnlyFault : Prop :=
  ∀ (s t : State) (w : CommandWord) (rest : List HostEvent) (r : Response), s.script = .command w :: rest →
    step s = .next t → t.responses = r :: s.responses → r.status ≠ .ok →
    ∃ bit : BitVec 3,
      ((r.status = .invalidDigestLength ∧ r.status.code = 0x1#4 ∧ bit = 0b001#3) ∨
       (r.status = .illegalCommand ∧ r.status.code = 0x2#4 ∧ bit = 0b010#3) ∨
       (r.status = .countOverflow ∧ r.status.code = 0x3#4 ∧ bit = 0b100#3)) ∧
      t = { s with script := rest, fault := s.fault ||| bit, responses := ⟨r.status, 0⟩ :: s.responses }

/-- R150, R157: the complete list: which word in which state raises which error, with its code and its `FAULT` bit; every other command
answers `OK`. -/
def Obligations.ErrorsAreExactlyThese : Prop :=
  ∀ (s : State) (w : CommandWord) (rest : List HostEvent), s.script = .command w :: rest →
    ∃ t r, step s = .next t ∧ t.responses = r :: s.responses ∧
      (r.status = .ok ∧ r.status.code = 0x0#4 ∧ t.fault = s.fault ∨
       r.status = .invalidDigestLength ∧ r.status.code = 0x1#4 ∧ t.fault = s.fault ||| 0b001#3 ∨
       r.status = .illegalCommand ∧ r.status.code = 0x2#4 ∧ t.fault = s.fault ||| 0b010#3 ∨
       r.status = .countOverflow ∧ r.status.code = 0x3#4 ∧ t.fault = s.fault ||| 0b100#3) ∧
      (r.status = .invalidDigestLength ↔ decode w = .ok .cmp ∧ (s.opA.len ≠ 32#6 ∨ s.opB.len ≠ 32#6)) ∧
      (r.status = .illegalCommand ↔ ∀ i, decode w ≠ .ok i) ∧
      (r.status = .countOverflow ↔ (∃ b, decode w = .ok (.upd b)) ∧ s.accum.count.toNat = 2 ^ 32 - 1)

/-- R22, R23, R158: no command clears a `FAULT` bit, and `FAULT` changes nothing that any command does: with another value in it every
command writes the same registers and gives the same response, but for the field of `STAT` that reports it. -/
def Obligations.FaultIsStickyAndOnlyRecords : Prop :=
  (∀ (s t : State) (w : CommandWord) (rest : List HostEvent) (k : Nat), s.script = .command w :: rest →
    step s = .next t → s.fault.getLsbD k = true → t.fault.getLsbD k = true) ∧
  (∀ (i : Instr) (s : State) (f : BitVec 3), ∃ t t', exec i s = .next t ∧ exec i { s with fault := f } = .next t' ∧
    { t' with fault := t.fault, responses := t.responses } = t ∧ (i ≠ .stat → t'.responses = t.responses))

/-- R48: repeating one of the nine commands with no other between gives the same response and the same state. -/
def Obligations.RepeatedCommandsAreIdempotent : Prop :=
  ∀ (i : Instr) (s : State),
    (i = .dgst ∨ (∃ j, i = .rdh j) ∨ i = .stat ∨ i = .cmp ∨ i = .aclr ∨ i = .clra ∨ i = .clrb ∨ i = .mva ∨ i = .mvb) →
    ∃ t u r, exec i s = .next t ∧ t.responses = r :: s.responses ∧
      exec i t = .next u ∧ u = { t with responses := r :: t.responses }
end

