-- ==== Sys2Proof/Laws/State.lean ====
section
/-! SUPPORT. One lemma per field per update of the state: what `respond`, `raise`, `takeReset`, `issued`, `idle` and `takeIllegal` leave
in each register, and what one consumed symbol and one operand update leave in theirs. -/

namespace Sys2Proof.Machine

@[simp] theorem respond_tran (v : Payload) (s : State) : (respond v s).tran = s.tran := rfl
@[simp] theorem respond_popc (v : Payload) (s : State) : (respond v s).popc = s.popc := rfl
@[simp] theorem respond_accum (v : Payload) (s : State) : (respond v s).accum = s.accum := rfl
@[simp] theorem respond_dg (v : Payload) (s : State) : (respond v s).dg = s.dg := rfl
@[simp] theorem respond_opA (v : Payload) (s : State) : (respond v s).opA = s.opA := rfl
@[simp] theorem respond_opB (v : Payload) (s : State) : (respond v s).opB = s.opB := rfl
@[simp] theorem respond_fault (v : Payload) (s : State) : (respond v s).fault = s.fault := rfl
@[simp] theorem respond_script (v : Payload) (s : State) : (respond v s).script = s.script := rfl
@[simp] theorem respond_responses (v : Payload) (s : State) : (respond v s).responses = ⟨ .ok, v ⟩ :: s.responses := rfl

@[simp] theorem raise_tran (e : Error) (s : State) : (raise e s).tran = s.tran := rfl
@[simp] theorem raise_popc (e : Error) (s : State) : (raise e s).popc = s.popc := rfl
@[simp] theorem raise_accum (e : Error) (s : State) : (raise e s).accum = s.accum := rfl
@[simp] theorem raise_dg (e : Error) (s : State) : (raise e s).dg = s.dg := rfl
@[simp] theorem raise_opA (e : Error) (s : State) : (raise e s).opA = s.opA := rfl
@[simp] theorem raise_opB (e : Error) (s : State) : (raise e s).opB = s.opB := rfl
@[simp] theorem raise_fault (e : Error) (s : State) : (raise e s).fault = setFault s.fault e := rfl
@[simp] theorem raise_script (e : Error) (s : State) : (raise e s).script = s.script := rfl
@[simp] theorem raise_responses (e : Error) (s : State) : (raise e s).responses = ⟨e.status, 0⟩ :: s.responses := rfl

@[simp] theorem takeReset_tran (s : State) : (takeReset s).tran = s.tran := rfl
@[simp] theorem takeReset_popc (s : State) : (takeReset s).popc = s.popc := rfl
@[simp] theorem takeReset_accum (s : State) : (takeReset s).accum = State.reset.accum := rfl
@[simp] theorem takeReset_dg (s : State) : (takeReset s).dg = State.reset.dg := rfl
@[simp] theorem takeReset_opA (s : State) : (takeReset s).opA = State.reset.opA := rfl
@[simp] theorem takeReset_opB (s : State) : (takeReset s).opB = State.reset.opB := rfl
@[simp] theorem takeReset_fault (s : State) : (takeReset s).fault = State.reset.fault := rfl
@[simp] theorem takeReset_script (s : State) : (takeReset s).script = s.script := rfl
@[simp] theorem takeReset_responses (s : State) : (takeReset s).responses = s.responses := rfl

@[simp] theorem issued_tran (rest : List HostEvent) (s : State) : (issued rest s).tran = s.tran := rfl
@[simp] theorem issued_popc (rest : List HostEvent) (s : State) : (issued rest s).popc = s.popc := rfl
@[simp] theorem issued_accum (rest : List HostEvent) (s : State) : (issued rest s).accum = s.accum := rfl
@[simp] theorem issued_dg (rest : List HostEvent) (s : State) : (issued rest s).dg = s.dg := rfl
@[simp] theorem issued_opA (rest : List HostEvent) (s : State) : (issued rest s).opA = s.opA := rfl
@[simp] theorem issued_opB (rest : List HostEvent) (s : State) : (issued rest s).opB = s.opB := rfl
@[simp] theorem issued_fault (rest : List HostEvent) (s : State) : (issued rest s).fault = s.fault := rfl
@[simp] theorem issued_script (rest : List HostEvent) (s : State) : (issued rest s).script = rest := rfl
@[simp] theorem issued_responses (rest : List HostEvent) (s : State) : (issued rest s).responses = s.responses := rfl

@[simp] theorem idle_eq (s : State) : idle s = s := rfl

@[simp] theorem takeIllegal_eq (why : IllegalWord) (s : State) : takeIllegal why s = raise .illegalCommand s := rfl

@[simp] theorem consume_acc {n : Nat} (t : TranTable) (b : Byte) (a : Accumulator n) :
    (a.consume t b).acc = bumpAll a.acc (selectedSlots t b a.w a.p) := rfl
@[simp] theorem consume_w {n : Nat} (t : TranTable) (b : Byte) (a : Accumulator n) :
    (a.consume t b).w = shiftWindow a.w b := rfl
@[simp] theorem consume_p {n : Nat} (t : TranTable) (b : Byte) (a : Accumulator n) :
    (a.consume t b).p = shiftPresence a.p := rfl
@[simp] theorem consume_count {n : Nat} (t : TranTable) (b : Byte) (a : Accumulator n) :
    (a.consume t b).count = a.count + 1 := rfl

@[simp] theorem append_len (b : OperandBuffer) (v : Byte) : (b.append v).len = bumpLen b.len := rfl
@[simp] theorem ofDigest_bytes (d : Vector Byte 32) : (OperandBuffer.ofDigest d).bytes = d := rfl
@[simp] theorem ofDigest_len (d : Vector Byte 32) : (OperandBuffer.ofDigest d).len = 32#6 := rfl
@[simp] theorem ofDigest_isDigest (d : Vector Byte 32) : (OperandBuffer.ofDigest d).isDigest = true := rfl
@[simp] theorem buffer_empty_len : OperandBuffer.empty.len = 0#6 := rfl
@[simp] theorem buffer_empty_isDigest : OperandBuffer.empty.isDigest = false := rfl

end Sys2Proof.Machine
end

