-- ==== Sys2Proof/Laws/Ops.lean ====
section
/-! SUPPORT. What the shared operations do: one entry of an index space read after a write, the fixed arrays, the `FAULT` bits, the
window flags, and the bits of a packed digest. -/

namespace Sys2Proof

@[simp] theorem tabulate_getElem {α : Type} (n : Nat) (f : Nat → α) (i : Nat) (h : i < n) :
    (tabulate n f)[i] = f i := by
  simp [tabulate]

namespace Machine

/-! ### Fields of a concatenation -/

theorem extract_self {b : Nat} (y : BitVec b) : y.extractLsb' 0 b = y := by
  apply BitVec.eq_of_getLsbD_eq
  intro i hi
  simp [hi]

/-- A field that lies in the low part. -/
theorem extract_append_low {a b : Nat} (x : BitVec a) (y : BitVec b) (k n : Nat) (h : k + n ≤ b) :
    (x ++ y).extractLsb' k n = y.extractLsb' k n := by
  apply BitVec.eq_of_getLsbD_eq
  intro i hi
  simp only [BitVec.getLsbD_extractLsb', BitVec.getLsbD_append]
  simp [show k + i < b by omega]

/-- The whole of the high part. -/
theorem extract_append_high {a b : Nat} (x : BitVec a) (y : BitVec b) : (x ++ y).extractLsb' b a = x := by
  apply BitVec.eq_of_getLsbD_eq
  intro i hi
  simp only [BitVec.getLsbD_extractLsb', BitVec.getLsbD_append]
  simp [hi]

/-! ### Index spaces -/

@[simp] theorem at8_put8_same {α : Type} (sp : Vector α 256) (i : BitVec 8) (v : α) :
    at8 (put8 sp i v) i = v := by
  simp [at8, put8]

@[simp] theorem at5_put5_same {α : Type} (sp : Vector α 32) (i : BitVec 5) (v : α) :
    at5 (put5 sp i v) i = v := by
  simp [at5, put5]

theorem at8_put8_other {α : Type} (sp : Vector α 256) (i j : BitVec 8) (v : α) (h : i ≠ j) :
    at8 (put8 sp i v) j = at8 sp j := by
  have : i.toNat ≠ j.toNat := fun e => h (BitVec.eq_of_toNat_eq e)
  simp [at8, put8, this]

theorem at5_put5_other {α : Type} (sp : Vector α 32) (i j : BitVec 5) (v : α) (h : i ≠ j) :
    at5 (put5 sp i v) j = at5 sp j := by
  have : i.toNat ≠ j.toNat := fun e => h (BitVec.eq_of_toNat_eq e)
  simp [at5, put5, this]

/-- Reading an array at an index in range is reading its entry. -/
theorem at8_ofNat {α : Type} (sp : Vector α 256) (i : Nat) (h : i < 256) : at8 sp (BitVec.ofNat 8 i) = sp[i] := by
  simp [at8, Nat.mod_eq_of_lt h]

theorem at5_ofNat {α : Type} (sp : Vector α 32) (i : Nat) (h : i < 32) : at5 sp (BitVec.ofNat 5 i) = sp[i] := by
  simp [at5, Nat.mod_eq_of_lt h]

/-- Two spaces with the same entries are the same. -/
theorem at8_ext {α : Type} {x y : Vector α 256} (h : ∀ i, at8 x i = at8 y i) : x = y := by
  ext i hi
  simpa [at8_ofNat _ _ hi] using h (BitVec.ofNat 8 i)

theorem at5_ext {α : Type} {x y : Vector α 32} (h : ∀ i, at5 x i = at5 y i) : x = y := by
  ext i hi
  simpa [at5_ofNat _ _ hi] using h (BitVec.ofNat 5 i)

@[simp] theorem at8_replicate {α : Type} (v : α) (i : BitVec 8) : at8 (Vector.replicate 256 v) i = v := by
  simp [at8]

@[simp] theorem at5_replicate {α : Type} (v : α) (i : BitVec 5) : at5 (Vector.replicate 32 v) i = v := by
  simp [at5]

/-! ### Flags -/

/-- A set `FAULT` bit stays set (10_state.md R22). -/
theorem setFault_sticky (f : BitVec 3) (e : Error) (k : Nat) (h : f.getLsbD k = true) :
    (setFault f e).getLsbD k = true := by
  simp [setFault, h]

theorem setFault_setFault (f : BitVec 3) (e : Error) : setFault (setFault f e) e = setFault f e := by
  simp [setFault, BitVec.or_assoc]

theorem present_shift_zero (p : BitVec 4) : present (shiftPresence p) 0 = true := by
  revert p; decide

theorem present_shift_succ (p : BitVec 4) (k : Nat) (h : k < 3) :
    present (shiftPresence p) (k + 1) = present p k := by
  obtain rfl | rfl | rfl : k = 0 ∨ k = 1 ∨ k = 2 := by omega
  all_goals revert p; decide

/-! ### Digest bytes and the packed digest -/

theorem byteOfBits_foldl (f : Nat → Bool) (m k : Nat) (hm : m ≤ 8) :
    ((List.range m).foldl (fun v k => if f k then v ||| (1#8 <<< k) else v) 0#8).getLsbD k =
      (decide (k < m) && f k) := by
  induction m with
  | zero => simp
  | succ m ih =>
    have ih := ih (by omega)
    rw [List.range_succ, List.foldl_append]
    simp only [List.foldl_cons, List.foldl_nil]
    have bit : (1#8 <<< m).getLsbD k = decide (k = m) := by
      rw [BitVec.getLsbD_shiftLeft, BitVec.getLsbD_one]
      by_cases h : k = m
      · simp [h]; omega
      · simp [h]; omega
    rcases lt_trichotomy k m with h | h | h
    · split <;> simp [ih, bit, h, show k < m + 1 by omega, show ¬ k = m by omega]
    · subst h
      split <;> simp_all
    · split <;> simp [ih, bit, show ¬ k < m + 1 by omega, show ¬ k = m by omega, show ¬ k < m by omega]

theorem byteOfBits_getLsbD (f : Nat → Bool) (k : Nat) (h : k < 8) : (byteOfBits f).getLsbD k = f k := by
  rw [byteOfBits, byteOfBits_foldl f 8 k (le_refl _)]
  simp [h]

/-- Byte `k` from the end of the bytes packed lies in bits `8k + 7` to `8k`. -/
theorem pack_foldl_getLsbD (l : List Byte) (v : Payload) (i : Nat) (hi : i < 256) :
    (l.foldl appendByte v).getLsbD i =
      if i < 8 * l.length then (l.reverse.getD (i / 8) 0#8).getLsbD (i % 8) else v.getLsbD (i - 8 * l.length) := by
  induction l generalizing v with
  | nil => simp
  | cons b l ih =>
    simp only [List.foldl_cons, ih, List.length_cons, List.reverse_cons]
    by_cases h1 : i < 8 * l.length
    · have h2 : i / 8 < l.reverse.length := by simp; omega
      rw [if_pos h1, if_pos (by omega), List.getD_append _ _ _ _ h2]
    · rw [if_neg h1]
      by_cases h2 : i < 8 * (l.length + 1)
      · have h3 : i / 8 = l.reverse.length := by simp; omega
        have h4 : i - 8 * l.length = i % 8 := by omega
        rw [if_pos h2, h3, List.getD_append_right _ _ _ _ (le_refl _), h4]
        have h5 : i % 8 < 8 := Nat.mod_lt _ (by decide)
        simp [appendByte, h5, show i % 8 < 256 by omega]
      · rw [if_neg h2]
        have h3 : ¬ i - 8 * l.length < 8 := by omega
        have h4 : i - 8 * l.length - 8 = i - 8 * (l.length + 1) := by omega
        have h5 : b.getLsbD (i - 8 * l.length) = false := BitVec.getLsbD_of_ge _ _ (by omega)
        simp [appendByte, h3, h4, h5, show i - 8 * l.length < 256 by omega,
          -BitVec.getLsbD_eq_getElem]

/-- Bit `i` of a packed digest is bit `i mod 8` of byte `31 - i / 8` (20_memory.md R43). -/
theorem packDigest_getLsbD (d : Vector Byte 32) (i : Nat) (hi : i < 256) :
    (packDigest d).getLsbD i = (at5 d (BitVec.ofNat 5 (31 - i / 8))).getLsbD (i % 8) := by
  have hlen : d.toList.length = 32 := by simp
  have hget : d.toList.reverse.getD (i / 8) 0#8 = d[31 - i / 8] := by
    rw [List.getD_eq_getElem _ _ (by simp; omega), List.getElem_reverse]
    simp
  rw [packDigest, pack_foldl_getLsbD _ _ _ hi, if_pos (by omega), hget, at5_ofNat _ _ (by omega)]

/-- Bit `k` of digest byte `j` is the bit of slot `8 (31 - j) + k` (42_digest_builder.md R114). -/
theorem buildDigest_getLsbD {n : Nat} (a : Accumulator n) (j k : Nat) (hj : j < 32) (hk : k < 8) :
    ((buildDigest a)[j]).getLsbD k = digestBit a (BitVec.ofNat 8 (8 * (31 - j) + k)) := by
  simp [buildDigest, preByte, byteOfBits_getLsbD _ _ hk]

/-- The digest as one number: bit `i` is the bit of slot `i` (R115). -/
theorem packDigest_buildDigest_getLsbD {n : Nat} (a : Accumulator n) (i : Nat) (hi : i < 256) :
    (packDigest (buildDigest a)).getLsbD i = digestBit a (BitVec.ofNat 8 i) := by
  have h1 : 31 - (31 - i / 8) = i / 8 := by omega
  rw [packDigest_getLsbD _ _ hi, at5_ofNat _ _ (by omega),
    buildDigest_getLsbD _ _ _ (by omega) (Nat.mod_lt _ (by decide)), h1]
  congr 2; omega

end Machine

end Sys2Proof
end

