-- ==== Sys2Proof/Laws/Accumulator.lean ====
section
/-! SUPPORT. What the accumulator's operations do: which slots one symbol selects, what the increments leave in every slot, the
window, the top of the counter. -/

namespace Sys2Proof.Machine

/-! ### Increments -/

theorem bump_at8 {m : Nat} (acc : Vector (BitVec m) 256) (u i : Byte) :
    at8 (bump acc u) i = if i = u then at8 acc i + 1 else at8 acc i := by
  by_cases h : i = u
  · subst h; simp [bump]
  · rw [bump, at8_put8_other _ _ _ _ (Ne.symm h), if_neg h]

/-- A slot selected `j` times gains `j` (41_accumulator.md R94), in the width of a slot. -/
theorem bumpAll_at8 {m : Nat} (us : List Byte) (acc : Vector (BitVec m) 256) (i : Byte) :
    at8 (bumpAll acc us) i = at8 acc i + BitVec.ofNat m (us.count i) := by
  induction us generalizing acc with
  | nil => simp [bumpAll]
  | cons u us ih =>
    have h : bumpAll acc (u :: us) = bumpAll (bump acc u) us := rfl
    rw [h, ih, bump_at8, List.count_cons]
    by_cases hiu : i = u
    · subst hiu
      simp [BitVec.ofNat_add, BitVec.add_assoc, BitVec.add_comm 1#m]
    · simp [hiu, Ne.symm hiu]

@[simp] theorem bumpAll_nil {m : Nat} (acc : Vector (BitVec m) 256) : bumpAll acc [] = acc := rfl

/-! ### Selected slots, by presence pattern (41_accumulator.md R93) -/

theorem selectedSlots_absent (t : TranTable) (b : Byte) (w : Vector Byte 4) (p : BitVec 4)
    (h : (present p 0 && present p 1) = false) : selectedSlots t b w p = [] := by
  simp [selectedSlots, h]

theorem selectedSlots_two (t : TranTable) (b : Byte) (w : Vector Byte 4) :
    selectedSlots t b w 0b0011#4 = [mix t b w[0] w[1] 0] := rfl

theorem selectedSlots_three (t : TranTable) (b : Byte) (w : Vector Byte 4) :
    selectedSlots t b w 0b0111#4 = [mix t b w[0] w[1] 0, mix t b w[0] w[2] 1, mix t b w[1] w[2] 2] := rfl

theorem selectedSlots_four (t : TranTable) (b : Byte) (w : Vector Byte 4) :
    selectedSlots t b w 0b1111#4 =
      [mix t b w[0] w[1] 0, mix t b w[0] w[2] 1, mix t b w[1] w[2] 2, mix t b w[0] w[3] 3, mix t b w[1] w[3] 4,
       mix t b w[2] w[3] 5, mix t w[3] w[0] b 6, mix t w[3] w[2] b 7] := rfl

/-- "up to 8 trigram-mixer invocations per symbol" (00_scope.md R5). -/
theorem selectedSlots_length_le (t : TranTable) (b : Byte) (w : Vector Byte 4) (p : BitVec 4) :
    (selectedSlots t b w p).length ≤ 8 := by
  unfold selectedSlots
  split
  · split
    · split <;> simp
    · simp
  · simp

/-! ### The window -/

@[simp] theorem shiftWindow_zero (w : Vector Byte 4) (b : Byte) : (shiftWindow w b)[0] = b := rfl
@[simp] theorem shiftWindow_one (w : Vector Byte 4) (b : Byte) : (shiftWindow w b)[1] = w[0] := rfl
@[simp] theorem shiftWindow_two (w : Vector Byte 4) (b : Byte) : (shiftWindow w b)[2] = w[1] := rfl
@[simp] theorem shiftWindow_three (w : Vector Byte 4) (b : Byte) : (shiftWindow w b)[3] = w[2] := rfl

/-! ### The counter -/

theorem atTop_eq_false {n : Nat} (a : Accumulator n) : a.atTop = false ↔ a.count.toNat + 1 < 2 ^ n := by
  have := a.count.isLt
  simp [Accumulator.atTop]; omega

theorem atTop_eq_true {n : Nat} (a : Accumulator n) : a.atTop = true ↔ a.count.toNat + 1 = 2 ^ n := by
  have := a.count.isLt
  simp [Accumulator.atTop]; omega

/-- Below the top the count rises by exactly one (10_state.md R17). -/
theorem consume_count_toNat {n : Nat} (t : TranTable) (b : Byte) (a : Accumulator n) (h : a.atTop = false) :
    (a.consume t b).count.toNat = a.count.toNat + 1 := by
  have h1 := (atTop_eq_false a).1 h
  have h2 : 1 % 2 ^ n = 1 := Nat.mod_eq_of_lt (by omega)
  simp [BitVec.toNat_add, h2, Nat.mod_eq_of_lt h1]

/-! ### The empty accumulator -/

@[simp] theorem empty_count (n : Nat) : (Accumulator.empty n).count = 0 := rfl
@[simp] theorem empty_p (n : Nat) : (Accumulator.empty n).p = 0#4 := rfl
@[simp] theorem empty_acc_at8 (n : Nat) (i : BitVec 8) : at8 (Accumulator.empty n).acc i = 0 := by
  simp [Accumulator.empty]

end Sys2Proof.Machine
end

