-- ==== Sys2Proof/Laws/Comparator.lean ====
section
/-! SUPPORT. What the operand buffers and the length check do. -/

namespace Sys2Proof.Machine

theorem bumpLen_toNat (len : BitVec 6) : (bumpLen len).toNat = min (len.toNat + 1) 63 := by
  have : min (len.toNat + 1) 63 < 64 := by omega
  simp [bumpLen, Nat.mod_eq_of_lt this]

/-- A saturated counter stays at 63 (10_state.md R20). -/
theorem bumpLen_saturated : bumpLen 63#6 = 63#6 := rfl

theorem append_bytes_below (b : OperandBuffer) (v : Byte) (h : b.len.toNat < 32) :
    (b.append v).bytes = b.bytes.set b.len.toNat v h := by
  have : b.len.toNat % 32 = b.len.toNat := Nat.mod_eq_of_lt h
  simp [OperandBuffer.append, h, put5, this]

theorem append_bytes_full (b : OperandBuffer) (v : Byte) (h : ¬ b.len.toNat < 32) :
    (b.append v).bytes = b.bytes := by
  simp [OperandBuffer.append, h]

theorem isDigest_iff (b : OperandBuffer) : b.isDigest = true ↔ b.len = 32#6 := by
  constructor
  · intro h
    exact BitVec.eq_of_toNat_eq (by simpa [OperandBuffer.isDigest] using h)
  · intro h
    simp [OperandBuffer.isDigest, h]

end Sys2Proof.Machine
end

