-- ==== Sys2Proof/Laws/Exec.lean ====
section
/-! SUPPORT. One spec lemma per meaning, and what `exec` and `step` can do said once: a command either gives its response after
writing some of the engine's registers, or raises the one error it can raise. -/

namespace Sys2Proof.Machine

open Host (Outcome)

/-! ### Commands that raise nothing -/

theorem exec_aclr (s : State) : exec .aclr s = .next (respond 0 { s with accum := Accumulator.empty Config.cntW }) := rfl
theorem exec_rdh (i : Byte) (s : State) : exec (.rdh i) s = .next (respond ((at8 s.accum.acc i).setWidth 256) s) := rfl
theorem exec_dgst (s : State) :
    exec .dgst s = .next (respond (packDigest (buildDigest s.accum)) { s with dg := buildDigest s.accum }) := rfl
theorem exec_stat (s : State) : exec .stat s = .next (respond (statusWord s) s) := rfl
theorem exec_clra (s : State) : exec .clra s = .next (respond 0 { s with opA := OperandBuffer.empty }) := rfl
theorem exec_clrb (s : State) : exec .clrb s = .next (respond 0 { s with opB := OperandBuffer.empty }) := rfl
theorem exec_lda (v : Byte) (s : State) : exec (.lda v) s = .next (respond 0 { s with opA := s.opA.append v }) := rfl
theorem exec_ldb (v : Byte) (s : State) : exec (.ldb v) s = .next (respond 0 { s with opB := s.opB.append v }) := rfl
theorem exec_mva (s : State) : exec .mva s = .next (respond 0 { s with opA := OperandBuffer.ofDigest s.dg }) := rfl
theorem exec_mvb (s : State) : exec .mvb s = .next (respond 0 { s with opB := OperandBuffer.ofDigest s.dg }) := rfl

/-! ### The two commands that can raise an error -/

theorem exec_upd_below (b : Byte) (s : State) (h : s.accum.atTop = false) :
    exec (.upd b) s = .next (respond 0 { s with accum := s.accum.consume s.tran b }) := by
  simp [exec, execUpd, h, immByte]

theorem exec_upd_top (b : Byte) (s : State) (h : s.accum.atTop = true) :
    exec (.upd b) s = .next (raise .countOverflow s) := by
  simp [exec, execUpd, h]

theorem exec_cmp_digests (s : State) (ha : s.opA.isDigest = true) (hb : s.opB.isDigest = true) :
    exec .cmp s = .next (respond (scorePayload (score s.popc s.opA.bytes s.opB.bytes)) s) := by
  simp [exec, execCmp, ha, hb]

theorem exec_cmp_wrong (s : State) (h : (s.opA.isDigest && s.opB.isDigest) = false) :
    exec .cmp s = .next (raise .invalidDigestLength s) := by
  simp [exec, execCmp, h]

/-- What any command can do, said once: it responds after writing the accumulator, `DG` or the operand buffers, or it
raises its error. -/
theorem exec_cases (i : Instr) (s : State) :
    (∃ e, exec i s = .next (raise e s) ∧
      ((e = .countOverflow ∧ (∃ b, i = .upd b) ∧ s.accum.atTop = true) ∨
       (e = .invalidDigestLength ∧ i = .cmp ∧ (s.opA.isDigest && s.opB.isDigest) = false))) ∨
    (∃ v a d x y, exec i s = .next (respond v { s with accum := a, dg := d, opA := x, opB := y })) := by
  cases i with
  | upd b =>
    cases h : s.accum.atTop with
    | true => exact .inl ⟨_, exec_upd_top b s h, .inl ⟨rfl, ⟨b, rfl⟩, rfl⟩⟩
    | false => exact .inr ⟨_, _, _, _, _, exec_upd_below b s h⟩
  | cmp =>
    cases h : s.opA.isDigest && s.opB.isDigest with
    | false => exact .inl ⟨_, exec_cmp_wrong s h, .inr ⟨rfl, rfl, rfl⟩⟩
    | true =>
      have h := Bool.and_eq_true_iff.1 h
      exact .inr ⟨_, _, _, _, _, exec_cmp_digests s h.1 h.2⟩
  | aclr => exact .inr ⟨_, _, _, _, _, exec_aclr s⟩
  | dgst => exact .inr ⟨_, _, _, _, _, exec_dgst s⟩
  | rdh j => exact .inr ⟨_, _, _, _, _, exec_rdh j s⟩
  | stat => exact .inr ⟨_, _, _, _, _, exec_stat s⟩
  | clra => exact .inr ⟨_, _, _, _, _, exec_clra s⟩
  | clrb => exact .inr ⟨_, _, _, _, _, exec_clrb s⟩
  | lda v => exact .inr ⟨_, _, _, _, _, exec_lda v s⟩
  | ldb v => exact .inr ⟨_, _, _, _, _, exec_ldb v s⟩
  | mva => exact .inr ⟨_, _, _, _, _, exec_mva s⟩
  | mvb => exact .inr ⟨_, _, _, _, _, exec_mvb s⟩

/-! ### One step -/

theorem step_no_event (s : State) (h : s.script = []) : step s = .next s := by
  simp [step, h]

theorem step_reset (s : State) (rest : List HostEvent) (h : s.script = .reset :: rest) :
    step s = .next (takeReset (issued rest s)) := by
  simp [step, h]

theorem step_command (s : State) (w : CommandWord) (rest : List HostEvent) (h : s.script = .command w :: rest) :
    step s = execWord w (issued rest s) := by
  simp [step, h]

theorem execWord_decoded (w : CommandWord) (i : Instr) (s : State) (h : decode w = .ok i) :
    execWord w s = exec i s := by
  simp [execWord, h]

theorem execWord_illegal (w : CommandWord) (e : IllegalWord) (s : State) (h : decode w = .error e) :
    execWord w s = .next (raise .illegalCommand s) := by
  simp [execWord, h]

end Sys2Proof.Machine
end

