-- ==== Sys2Proof/Laws/Invariant.lean ====
section
/-! SUPPORT. The sum of the slots under the accumulator's operations, the presence patterns the invariant leaves, and the operand
buffers' part of the invariant. -/

namespace Sys2Proof.Machine

/-! ### Sums of slots -/

theorem list_sum_set (l : List Nat) (k v : Nat) (h : k < l.length) : (l.set k v).sum + l[k] = l.sum + v := by
  induction l generalizing k with
  | nil => simp at h
  | cons a l ih =>
    cases k with
    | zero => simp; omega
    | succ k => simp at h ⊢; have := ih k h; omega

/-- Writing one slot changes the sum by the difference. -/
theorem sum_put8 {m : Nat} (acc : Vector (BitVec m) 256) (u : Byte) (v : BitVec m) :
    ((put8 acc u v).toList.map BitVec.toNat).sum + (at8 acc u).toNat =
      (acc.toList.map BitVec.toNat).sum + v.toNat := by
  have hu := u.isLt
  have hset : (put8 acc u v).toList = acc.toList.set u.toNat v := by simp [put8, Vector.toList_set]
  have hget : (at8 acc u).toNat = (acc.toList.map BitVec.toNat)[u.toNat]'(by simpa using hu) := by simp [at8]
  rw [hset, List.map_set, hget]
  exact list_sum_set _ _ _ _

theorem slot_le_sum {m : Nat} (acc : Vector (BitVec m) 256) (u : Byte) :
    (at8 acc u).toNat ≤ (acc.toList.map BitVec.toNat).sum := by
  have := sum_put8 acc u 0
  simp at this
  omega

/-- Without overflow the increments of a list of slots add its length to the sum. -/
theorem sum_bumpAll {m : Nat} (us : List Byte) (acc : Vector (BitVec m) 256)
    (h : (acc.toList.map BitVec.toNat).sum + us.length < 2 ^ m) :
    ((bumpAll acc us).toList.map BitVec.toNat).sum = (acc.toList.map BitVec.toNat).sum + us.length := by
  induction us generalizing acc with
  | nil => simp
  | cons u us ih =>
    have hcons : bumpAll acc (u :: us) = bumpAll (put8 acc u (at8 acc u + 1)) us := rfl
    simp only [List.length_cons] at h ⊢
    have hslot := slot_le_sum acc u
    have hone : (1 : BitVec m).toNat = 1 := by simp [Nat.mod_eq_of_lt (show 1 < 2 ^ m by omega)]
    have hadd : (at8 acc u + 1).toNat = (at8 acc u).toNat + 1 := by
      rw [BitVec.toNat_add, hone]
      apply Nat.mod_eq_of_lt
      omega
    have hput := sum_put8 acc u (at8 acc u + 1)
    rw [hcons, ih _ (by omega)]
    omega

/-! ### `total` -/

/-- `total(COUNT)` fits in a slot, for every width of `COUNT` (10_state.md R14). -/
theorem total_lt (n c : Nat) (h : c < 2 ^ n) : total c < 2 ^ (n + 3) := by
  unfold total
  rw [Nat.pow_add]
  split
  · omega
  · split
    · omega
    · split <;> omega

theorem total_of_five_le (c : Nat) (h : 5 ≤ c) : total c = 8 * c - 28 := by
  simp [total, show ¬ c ≤ 2 by omega, show ¬ c = 3 by omega, show ¬ c = 4 by omega]

/-! ### Presence patterns (41_accumulator.md R93) -/

theorem presence_pattern (p : BitVec 4) (c : Nat) (h : ∀ k : Fin 4, present p k.val = decide (k.val < c)) :
    (c = 0 → p = 0b0000#4) ∧ (c = 1 → p = 0b0001#4) ∧ (c = 2 → p = 0b0011#4) ∧ (c = 3 → p = 0b0111#4) ∧
    (4 ≤ c → p = 0b1111#4) := by
  have h0 := h 0
  have h1 := h 1
  have h2 := h 2
  have h3 := h 3
  simp only [present] at h0 h1 h2 h3
  refine ⟨?_, ?_, ?_, ?_, ?_⟩ <;> intro hc
  all_goals
    apply BitVec.eq_of_getLsbD_eq
    intro i hi
    interval_cases i
    · simp at h0; simp [h0]; omega
    · simp at h1; simp [h1]; omega
    · simp at h2; simp [h2]; omega
    · simp at h3; simp [h3]; omega

/-- One more symbol raises `total` by the number of slots it increments (42_digest_builder.md R112). -/
theorem total_succ {n : Nat} (a : Accumulator n) (h : a.Inv) (t : TranTable) (b : Byte) :
    total (a.count.toNat + 1) = total a.count.toNat + (selectedSlots t b a.w a.p).length := by
  obtain ⟨p0, p1, p2, p3, p4⟩ := presence_pattern _ _ h.1
  generalize a.count.toNat = c at *
  rcases (by omega : c = 0 ∨ c = 1 ∨ c = 2 ∨ c = 3 ∨ c = 4 ∨ 5 ≤ c) with hc | hc | hc | hc | hc | hc
  · rw [p0 hc, hc]; rfl
  · rw [p1 hc, hc]; rfl
  · rw [p2 hc, hc]; rfl
  · rw [p3 hc, hc]; rfl
  · rw [p4 (by omega), hc]; rfl
  · rw [p4 (by omega), selectedSlots_four, total_of_five_le _ hc, total_of_five_le _ (by omega)]
    simp
    omega

/-! ### Operand buffers (10_state.md R20) -/

theorem buffer_empty_inv : OperandBuffer.empty.Inv := by
  intro k _
  simp [OperandBuffer.empty]

theorem ofDigest_inv (d : Vector Byte 32) : (OperandBuffer.ofDigest d).Inv := by
  intro k hk
  have := k.isLt
  simp at hk
  omega

theorem append_inv (b : OperandBuffer) (v : Byte) (h : b.Inv) : (b.append v).Inv := by
  intro k hk
  rw [append_len, bumpLen_toNat] at hk
  have := k.isLt
  have hlt : b.len.toNat < 32 := by omega
  simp only [append_bytes_below b v hlt]
  rw [Vector.getElem_set_ne _ _ (by omega)]
  exact h k (by omega)

end Sys2Proof.Machine
end

