-- ==== Sys2Proof/Laws/PerInstr.lean ====
section
/-! SUPPORT. The family `Encoding` of LAWS.json: the word of a command meets the three checks of spec/30_encoding.md R62, and the row
of the opcode table that carries the command's mnemonic is the one and only row it matches. -/

namespace Sys2Proof.Laws.Encoding

/-- The encoded word is well formed and matches exactly the row of its own mnemonic. -/
def Statement (i : Instr) : Prop :=
  (RawCommand.ofWord (encode i)).wf = true ∧
  ∀ r ∈ opcodeRows, r.matches (encode i) = true ↔ r.mnemonic = i.mnemonic

theorem aclr : Statement .aclr := by unfold Statement; decide
theorem upd (imm : Byte) : Statement (.upd imm) := by revert imm; unfold Statement; decide
theorem dgst : Statement .dgst := by unfold Statement; decide
theorem rdh (imm : Byte) : Statement (.rdh imm) := by revert imm; unfold Statement; decide
theorem stat : Statement .stat := by unfold Statement; decide
theorem clra : Statement .clra := by unfold Statement; decide
theorem clrb : Statement .clrb := by unfold Statement; decide
theorem lda (imm : Byte) : Statement (.lda imm) := by revert imm; unfold Statement; decide
theorem ldb (imm : Byte) : Statement (.ldb imm) := by revert imm; unfold Statement; decide
theorem mva : Statement .mva := by unfold Statement; decide
theorem mvb : Statement .mvb := by unfold Statement; decide
theorem cmp : Statement .cmp := by unfold Statement; decide

end Sys2Proof.Laws.Encoding
end

