-- ==== Sys2Proof/Laws/Runs.lean ====
section
/-! SUPPORT. Runs: no command reads or writes what the host has yet to issue, so a run over a list of words is one command after another. -/

namespace Sys2Proof.Machine

theorem exec_with_script (i : Instr) (s t : State) (x : List HostEvent) (h : exec i s = .next t) :
    exec i { s with script := x } = .next { t with script := x } := by
  cases i with
  | upd b =>
    cases htop : s.accum.atTop with
    | true => rw [exec_upd_top b s htop] at h; cases h; exact exec_upd_top b _ htop
    | false => rw [exec_upd_below b s htop] at h; cases h; exact exec_upd_below b _ htop
  | cmp =>
    cases hd : s.opA.isDigest && s.opB.isDigest with
    | false => rw [exec_cmp_wrong s hd] at h; cases h; exact exec_cmp_wrong _ hd
    | true =>
      have hd := Bool.and_eq_true_iff.1 hd
      rw [exec_cmp_digests s hd.1 hd.2] at h; cases h; exact exec_cmp_digests _ hd.1 hd.2
  | _ => cases h; rfl

theorem execWord_with_script (w : CommandWord) (s t : State) (x : List HostEvent) (h : execWord w s = .next t) :
    execWord w { s with script := x } = .next { t with script := x } := by
  cases hd : decode w with
  | ok i => rw [execWord_decoded _ _ _ hd] at h ⊢; exact exec_with_script _ _ _ _ h
  | error e => rw [execWord_illegal _ _ _ hd] at h ⊢; cases h; rfl

/-- Every word gives a next state, with the script and the ROMs as before. -/
theorem execWord_next (w : CommandWord) (s : State) :
    ∃ t, execWord w s = .next t ∧ t.script = s.script ∧ t.tran = s.tran ∧ t.popc = s.popc := by
  cases hd : decode w with
  | ok i =>
    rw [execWord_decoded _ _ _ hd]
    rcases exec_cases i s with ⟨e, h, -⟩ | ⟨v, a, d, x, y, h⟩ <;> exact ⟨_, h, rfl, rfl, rfl⟩
  | error e => exact ⟨_, execWord_illegal _ _ _ hd, rfl, rfl, rfl⟩

@[simp] theorem issue_nil (s : State) : issue [] s = s := rfl

/-- The first word of a list is executed, then the rest is issued. -/
theorem stepN_issue_cons (k : Nat) (w : CommandWord) (ws : List CommandWord) (s t : State)
    (h : execWord w s = .next t) : stepN (k + 1) (issue (w :: ws) s) = stepN k (issue ws t) := by
  have hs : (issue (w :: ws) s).script = .command w :: (ws.map .command ++ s.script) := rfl
  have hx := execWord_with_script w s t (ws.map .command ++ s.script) h
  obtain ⟨t', ht', hscript, -⟩ := execWord_next w s
  rw [h] at ht'
  cases ht'
  have hissued : issued (ws.map HostEvent.command ++ s.script) (issue (w :: ws) s) =
      { s with script := ws.map .command ++ s.script } := rfl
  show (match step _ with | .next t => _ | .fault r => _ | .refused r => _) = _
  rw [step_command _ _ _ hs, hissued, hx]
  simp only [issue, hscript]

/-- A run over two lists of words is a run over the first, then one over the second. -/
theorem stepN_issue_append (ws vs : List CommandWord) (s t : State)
    (h : stepN ws.length (issue ws s) = .next t) :
    stepN (ws.length + vs.length) (issue (ws ++ vs) s) = stepN vs.length (issue vs t) := by
  induction ws generalizing s with
  | nil =>
    simp only [List.length_nil, Nat.zero_add, List.nil_append]
    cases h
    rfl
  | cons w ws ih =>
    obtain ⟨u, hu, -⟩ := execWord_next w s
    rw [List.length_cons, stepN_issue_cons _ _ _ _ _ hu] at h
    rw [List.length_cons, List.cons_append, show ws.length + 1 + vs.length = (ws.length + vs.length) + 1 by omega,
      stepN_issue_cons _ _ _ _ _ hu]
    exact ih u h

/-- The host's own run of the machine is `stepN`. -/
theorem core_run_eq_stepN (n : Nat) (s : State) : Host.Core.run Sys2Proof.core n s = stepN n s := by
  induction n generalizing s with
  | zero => rfl
  | succ n ih =>
    refine (Host.Core.run.eq_2 _ _ _).trans ?_
    have hstep : Sys2Proof.core.step s = step s := rfl
    unfold stepN
    rw [hstep]
    cases step s with
    | next t => exact ih t
    | fault r => rfl
    | refused r => rfl

end Sys2Proof.Machine
end

