-- ==== Sys2Proof/Tests/Slice0.lean ====
section
/-! SUPPORT. Tests of the model and witnesses of the statements. Every expected value is the spec's own: the section is named at each
test. A witness shows a concrete state and operands that meet all hypotheses of a statement together. -/

namespace Sys2Proof.Tests

open Sys2Proof.Machine

/-! ### Helpers -/

/-- A state whose next event is the word `w`. -/
def withWord (w : CommandWord) (s : State) : State :=
  { s with script := [.command w] }

/-- An accumulator in the invariant at any count: all increments in slot 0, no symbol but 0x00 in the window. -/
def accumAt (c : Nat) : Accumulator Config.cntW :=
  { Accumulator.empty Config.cntW with
    acc := put8 (Accumulator.empty Config.cntW).acc 0 (BitVec.ofNat 35 (total c))
    p := BitVec.ofNat 4 (2 ^ min c 4 - 1)
    count := BitVec.ofNat 32 c }

/-- The reset state with that accumulator. -/
def stateAt (c : Nat) : State :=
  { State.reset with accum := accumAt c }

/-- The invariant at the counts the witnesses use. -/
theorem accumAt_inv : ∀ c ∈ [0, 1, 2, 3, 4, 5, 35, 36, 2 ^ 32 - 2, 2 ^ 32 - 1], (accumAt c).Inv := by decide +kernel

/-- An operand of 32 equal bytes. -/
def filled (b : Byte) : OperandBuffer :=
  { bytes := Vector.replicate 32 b, len := 32#6 }

/-- The reset state with two operands. -/
def withOperands (a b : OperandBuffer) : State :=
  { State.reset with opA := a, opB := b }

/-- What a step leaves, where it answers a next state. -/
def after (o : Host.Outcome State Fault Refusal) : State :=
  match o with
  | .next t => t
  | .fault _ => State.reset
  | .refused _ => State.reset

/-! ### Well-formed raw commands: one ill-formed term for each check (30_encoding.md R62, R64) -/

theorem smoke_opAssigned_refuses : (RawCommand.mk 0xD#4 0#4 0x00#8).wf = false ∧ (RawCommand.mk 0xD#4 0#4 0x00#8).opAssigned = false := by decide
theorem smoke_opAssigned_refuses_zero : (RawCommand.mk 0x0#4 0#4 0x00#8).wf = false := by decide
theorem smoke_reservedClear_refuses : (RawCommand.mk 0x2#4 1#4 0x00#8).wf = false ∧ (RawCommand.mk 0x2#4 1#4 0x00#8).reservedClear = false := by decide
theorem smoke_immediateAllowed_refuses : (RawCommand.mk 0x1#4 0#4 0x01#8).wf = false ∧ (RawCommand.mk 0x1#4 0#4 0x01#8).immediateAllowed = false := by decide
theorem smoke_wf_accepts : (RawCommand.mk 0x2#4 0#4 0xFF#8).wf = true ∧ (RawCommand.mk 0xC#4 0#4 0x00#8).wf = true := by decide

/-! ### Decoding: each command's word, bit by bit (30_encoding.md R60, R63; opcode_table.json "encoding") -/

theorem test_decode_ACLR : decode 0b0001000000000000#16 = .ok .aclr := by decide
theorem test_decode_UPD : decode 0b0010000001010100#16 = .ok (.upd 0x54#8) := by decide
theorem test_decode_DGST : decode 0b0011000000000000#16 = .ok .dgst := by decide
theorem test_decode_RDH : decode 0b0100000000110001#16 = .ok (.rdh 0x31#8) := by decide
theorem test_decode_STAT : decode 0b0101000000000000#16 = .ok .stat := by decide
theorem test_decode_CLRA : decode 0b0110000000000000#16 = .ok .clra := by decide
theorem test_decode_CLRB : decode 0b0111000000000000#16 = .ok .clrb := by decide
theorem test_decode_LDA : decode 0b1000000010101011#16 = .ok (.lda 0xAB#8) := by decide
theorem test_decode_LDB : decode 0b1001000000001111#16 = .ok (.ldb 0x0F#8) := by decide
theorem test_decode_MVA : decode 0b1010000000000000#16 = .ok .mva := by decide
theorem test_decode_MVB : decode 0b1011000000000000#16 = .ok .mvb := by decide
theorem test_decode_CMP : decode 0b1100000000000000#16 = .ok .cmp := by decide

/-- 95_test_vectors.md section 6: the illegal words, and the legal ones beside them. -/
theorem test_decode_illegal :
    [0x0000#16, 0xFFFF#16, 0x1001#16, 0x2100#16, 0xD000#16, 0x30FF#16].all (fun w => !(decode w).isOk) = true ∧
    [0x2000#16, 0x20FF#16, 0x3000#16].all (fun w => (decode w).isOk) = true := by decide

/-- The table's numbering of bits, and the fetch from reset (30_encoding.md R63). -/
theorem test_decodeTableWord : decodeTableWord 16 0x2061 = some (.upd 0x61#8) ∧ decodeTableWord 16 0x2161 = none := by decide
theorem test_withFetchWord :
    (after (step (State.reset.withFetchWord 16 0x2061))).accum.count = 1 ∧
    (after (step (State.reset.withFetchWord 16 0x2061))).script = [] := by decide

/-! ### Tables and mixer (40_mixer.md section 3, 95_test_vectors.md section 2) -/

theorem test_popc_samples : at8 Config.popc 0x0F#8 = 4#4 ∧ at8 Config.popc 0xA5#8 = 4#4 ∧ at8 Config.popc 0xFF#8 = 8#4 := by decide
theorem test_mix_index_wraps : mix Config.tran 0xFF#8 0xFF#8 0xFF#8 1 = 0x8C#8 := by decide
theorem test_mix_product_wraps : mix Config.tran 0xFE#8 0x80#8 0x7F#8 7 = 0xC2#8 := by decide
/-- "a model can use this single value to check its grouping": 81, not 61. -/
theorem test_mix_grouping : mix Config.tran 0x00#8 0x00#8 0x00#8 1 = 0x81#8 := by decide

/-! ### Commands -/

/-- 41_accumulator.md R91, the example: 'e' after 'T', 'h'. -/
theorem test_UPD_third_symbol :
    let a : Accumulator Config.cntW :=
      { Accumulator.empty Config.cntW with w := #v[0x68#8, 0x54#8, 0x00#8, 0x00#8], p := 0b0011#4, count := 2 }
    let t := (after (execUpd 0x65#8 { State.reset with accum := a })).accum
    at8 t.acc 0x77#8 = 1 ∧ t.count = 3 ∧ t.p = 0b0111#4 ∧ t.w = #v[0x65#8, 0x68#8, 0x54#8, 0x00#8] := by decide

/-- 95_test_vectors.md T4: the fifth symbol of 00 00 00 01 00 selects slot 72 twice; it held 1. -/
theorem test_UPD_same_slot_twice :
    let a : Accumulator Config.cntW :=
      { acc := put8 (Accumulator.empty Config.cntW).acc 0x72#8 1
        w := #v[0x01#8, 0x00#8, 0x00#8, 0x00#8], p := 0b1111#4, count := 4 }
    let t := (after (execUpd 0x00#8 { State.reset with accum := a })).accum
    at8 t.acc 0x72#8 = 3 ∧ at8 t.acc 0xB1#8 = 1 ∧ t.count = 5 := by decide

/-- 95_test_vectors.md T6, `CNT_W` = 3: at `COUNT` = 7 the next symbol is refused; at 6 it is not. -/
theorem test_UPD_top_at_width_three :
    ({ Accumulator.empty 3 with count := 7#3 } : Accumulator 3).atTop = true ∧
    ({ Accumulator.empty 3 with count := 6#3 } : Accumulator 3).atTop = false := by decide

/-- 95_test_vectors.md T5: `ACLR` empties the accumulator and keeps `DG`. -/
theorem test_ACLR :
    let t := after (execAclr { stateAt 5 with dg := Vector.replicate 32 0x40#8 })
    at8 t.accum.acc 0x00#8 = 0 ∧ t.accum.count = 0 ∧ t.accum.p = 0#4 ∧ at5 t.dg 31 = 0x40#8 := by decide

/-- 41_accumulator.md R99, the example: after "abc" slot F6 holds 1. -/
theorem test_RDH :
    let s := { State.reset with
      accum := { Accumulator.empty Config.cntW with acc := put8 (Accumulator.empty Config.cntW).acc 0xF6#8 1 } }
    (after (execRdh 0xF6#8 s)).responses = [⟨.ok, 1⟩] ∧ (after (execRdh 0xF7#8 s)).responses = [⟨.ok, 0⟩] := by decide

/-- 42_digest_builder.md R117, "abc": `DG[1]` = 0x40, all other bytes 0x00. -/
theorem test_DGST_abc :
    let s := { State.reset with
      accum := { Accumulator.empty Config.cntW with acc := put8 (Accumulator.empty Config.cntW).acc 0xF6#8 1, count := 3 } }
    (after (execDgst s)).responses =
      [⟨.ok, 0x0040000000000000000000000000000000000000000000000000000000000000#256⟩] ∧
    (after (execDgst s)).dg[1] = 0x40#8 ∧ (after (execDgst s)).dg[0] = 0x00#8 := by decide +kernel

/-- 95_test_vectors.md section 4: slot 0 is bit 0 of `DG[31]`, slot 255 is bit 7 of `DG[0]`; 42_digest_builder.md R117 (e): at 36
symbols a slot holding 1 sets no bit. -/
theorem test_DGST_ends_and_threshold :
    let s := fun (slot : Byte) (c : Nat) => { State.reset with
      accum := { Accumulator.empty Config.cntW with
        acc := put8 (Accumulator.empty Config.cntW).acc slot 1, count := BitVec.ofNat 32 c } }
    (after (execDgst (s 0x00#8 3))).dg[31] = 0x01#8 ∧ (after (execDgst (s 0xFF#8 3))).dg[0] = 0x80#8 ∧
    (after (execDgst (s 0xFF#8 35))).dg[0] = 0x80#8 ∧ (after (execDgst (s 0xFF#8 36))).dg[0] = 0x00#8 := by decide

/-- 44_system.md R140, the example: the lower 128 bits after "abc". -/
theorem test_STAT_abc :
    let s := { State.reset with
      accum := { Accumulator.empty Config.cntW with
        w := #v[0x63#8, 0x62#8, 0x61#8, 0x00#8], p := 0b0111#4, count := 3 } }
    (after (execStat s)).responses = [⟨.ok, 0x00616263000000070000000000000003#256⟩] := by decide

/-- 95_test_vectors.md P4: `STAT` with `LA` = 33, `LB` = 32 and `FAULT.IDL`. -/
theorem test_STAT_lengths_and_fault :
    let s := { State.reset with
      opA := { OperandBuffer.empty with len := 33#6 }, opB := { OperandBuffer.empty with len := 32#6 }, fault := 0b001#3 }
    (after (execStat s)).responses = [⟨.ok, 0x012021000000000000000000#256⟩] := by decide

/-- 43_comparator.md R120, the example. -/
theorem test_CLRA : (after (execClra (withOperands (filled 0xAB#8) (filled 0xAB#8)))).opA = OperandBuffer.empty := by decide
theorem test_CLRB : (after (execClrb (withOperands (filled 0xAB#8) (filled 0xAB#8)))).opB = OperandBuffer.empty := by decide

/-- 95_test_vectors.md P4: the 33rd load is counted, not stored. -/
theorem test_LDA_33rd :
    let t := after (execLda 0x00#8 (withOperands (filled 0xAB#8) (filled 0xAB#8)))
    t.opA = { filled 0xAB#8 with len := 33#6 } ∧ t.opB = filled 0xAB#8 := by decide

/-- 43_comparator.md R122: the first load writes `OPA[0]`. -/
theorem test_LDA_first : (after (execLda 0x8A#8 State.reset)).opA =
    { bytes := (Vector.replicate 32 0x00#8).set 0 0x8A#8, len := 1#6 } := by decide

/-- 43_comparator.md R123: the last byte that is stored, and the counter that stays at 63. -/
theorem test_LDB_32nd : (after (execLdb 0x8A#8 (withOperands OperandBuffer.empty { OperandBuffer.empty with len := 31#6 }))).opB =
    { bytes := (Vector.replicate 32 0x00#8).set 31 0x8A#8, len := 32#6 } := by decide
theorem test_LDB_saturates :
    (after (execLdb 0x8A#8 (withOperands OperandBuffer.empty { filled 0xAB#8 with len := 63#6 }))).opB =
      { filled 0xAB#8 with len := 63#6 } := by decide

/-- 43_comparator.md R124, the example: after "abc" and `DGST`, `MVA` leaves `OPA[1]` = 0x40 and `LA` = 32. -/
theorem test_MVA :
    let t := after (execMva { State.reset with dg := (Vector.replicate 32 0x00#8).set 1 0x40#8 })
    t.opA.bytes[1] = 0x40#8 ∧ t.opA.len = 32#6 ∧ t.opB = OperandBuffer.empty := by decide
theorem test_MVB :
    let t := after (execMvb { State.reset with dg := (Vector.replicate 32 0x00#8).set 1 0x40#8 })
    t.opB.bytes[1] = 0x40#8 ∧ t.opB.len = 32#6 ∧ t.opA = OperandBuffer.empty := by decide

/-- 95_test_vectors.md section 5: -128, 128, 0. -/
theorem test_CMP_extremes :
    (after (execCmp (withOperands (filled 0xFF#8) (filled 0x00#8)))).responses = [⟨.ok, BitVec.ofInt 256 (-128)⟩] ∧
    (after (execCmp (withOperands (filled 0xFF#8) (filled 0xFF#8)))).responses = [⟨.ok, 0x80#256⟩] ∧
    (after (execCmp (withOperands (filled 0xFF#8) (filled 0x0F#8)))).responses = [⟨.ok, 0#256⟩] := by decide

/-- 95_test_vectors.md section 5: 33 and 32 bytes; `FAULT.IDL` is set, the operands stay. -/
theorem test_CMP_wrong_length :
    let t := after (execCmp (withOperands { filled 0xAB#8 with len := 33#6 } (filled 0xAB#8)))
    t.fault = 0b001#3 ∧ t.responses = [⟨.invalidDigestLength, 0⟩] ∧ t.opA.len = 33#6 ∧ t.opB.len = 32#6 := by decide

/-- 60_exceptions.md R152, R154: an illegal word sets `FAULT.ILL` only. -/
theorem test_illegal_word :
    let t := after (step (withWord 0x2100#16 State.reset))
    t.fault = 0b010#3 ∧ t.responses = [⟨.illegalCommand, 0⟩] ∧ t.accum.count = 0 ∧ t.opA.len = 0#6 := by decide

/-- 70_reset_and_hazards.md R170: reset clears `FAULT` and the accumulator. -/
theorem test_reset_event :
    let t := after (step { stateAt 5 with fault := 0b111#3, script := [.reset] })
    t.fault = 0#3 ∧ t.accum.count = 0 ∧ t.accum.p = 0#4 ∧ at8 t.accum.acc 0#8 = 0 := by decide

/-- 30_encoding.md R66: the 260-bit response of an illegal word. -/
theorem test_response_bits : (Response.mk .illegalCommand 0).bits = 0x2#4 ++ (0 : Payload) := by decide

/-! ### Written forms (30_encoding.md R69, R70, R72) -/

theorem test_assemble_comment : assembleLine ['C', 'M', 'P', ' ', ';', 'x'] = some [.cmp] ∧ assembleLine [';', 'C'] = some [] := by decide
theorem test_assemble_update : assembleLine ['U', 'P', 'D', 'A', 'T', 'E', ' ', '0', 'x', '0', 'a', ',', ' ', '9'] =
    some [.upd 0x0A#8, .upd 0x09#8] := by decide
theorem test_assemble_loada : assembleLine ['L', 'O', 'A', 'D', 'A', ' ', 'a', 'B', '0', '1'] =
    some [.clra, .lda 0xAB#8, .lda 0x01#8] := by decide
/-- An immediate above 255 and a lower-case mnemonic are no command. -/
theorem test_assemble_refuses : assembleLine ['U', 'P', 'D', ' ', '2', '5', '6'] = none ∧ assembleLine ['c', 'm', 'p'] = none := by decide

/-! ### Witnesses -/

theorem witness_DecodeAndEncodeAgree : decode 0xC000#16 = .ok .cmp := by decide

theorem witness_DecodingIsStrictAndTotal :
    decode 0x20FF#16 = .ok (.upd 0xFF#8) ∧ ∃ r ∈ opcodeRows, r.matches 0x20FF#16 = true ∧ r.mnemonic = "UPD" := by
  refine ⟨by decide, ⟨"UPD", 0x2000#16, 0xFF00#16⟩, by decide, by decide, rfl⟩

/-- One word of each class of R64, at the ends of the classes, and a legal word. -/
theorem witness_IllegalWordsRaiseIllegalCommand :
    (∀ w, (withWord w State.reset).script = .command w :: []) ∧
    (0x0000#16).extractLsb' 12 4 = 0x0#4 ∧ (0xD000#16).extractLsb' 12 4 = 0xD#4 ∧ (0xE000#16).extractLsb' 12 4 = 0xE#4 ∧
    (0xFFFF#16).extractLsb' 12 4 = 0xF#4 ∧ (0x2100#16).extractLsb' 8 4 ≠ 0#4 ∧
    ((0x1001#16).extractLsb' 12 4 ∈ [0x1#4, 0x3#4, 0x5#4, 0x6#4, 0x7#4, 0xA#4, 0xB#4, 0xC#4] ∧
      (0x1001#16).extractLsb' 0 8 ≠ 0#8) ∧
    ((0xC0FF#16).extractLsb' 12 4 ∈ [0x1#4, 0x3#4, 0x5#4, 0x6#4, 0x7#4, 0xA#4, 0xB#4, 0xC#4] ∧
      (0xC0FF#16).extractLsb' 0 8 ≠ 0#8) ∧
    decode 0x2000#16 = .ok (.upd 0x00#8) := by
  refine ⟨fun _ => rfl, ?_⟩
  decide

theorem witness_StepRunsTheDecodedCommand :
    (withWord 0x5000#16 State.reset).script = .command 0x5000#16 :: [] ∧ decode 0x5000#16 = .ok .stat := by decide

theorem witness_NoEventNoChange : State.reset.script = [] := rfl

theorem witness_EveryCommandGetsOneResponse :
    (withWord 0x3000#16 State.reset).script = .command 0x3000#16 :: [] ∧
    (after (step (withWord 0xFFFF#16 State.reset))).responses.head?.map (fun r => decide (r.status ≠ .ok)) = some true := by
  decide

theorem witness_ResetValues :
    ({ stateAt 5 with script := [.reset] } : State).script = .reset :: [] ∧ ({ stateAt 5 with script := [.reset] } : State).RomsIntact :=
  ⟨rfl, rfl, rfl⟩

theorem witness_ResetEventRestoresResetValues :
    ({ stateAt 5 with script := [.reset, .command 0x3000#16] } : State).script = .reset :: [.command 0x3000#16] := rfl

/-- A state in the invariant that is not the reset state, and its step. -/
theorem witness_EveryStepKeepsTheInvariant :
    (withWord 0x2061#16 (stateAt 4)).Inv ∧
    step (withWord 0x2061#16 (stateAt 4)) = .next (after (step (withWord 0x2061#16 (stateAt 4)))) :=
  ⟨⟨accumAt_inv 4 (by decide), by decide, by decide⟩, rfl⟩

theorem witness_TranIsAPermutationAndIsNeverWritten :
    step (withWord 0x2061#16 State.reset) = .next (after (step (withWord 0x2061#16 State.reset))) ∧
    ∀ b, Instr.stat ≠ .upd b := ⟨rfl, by simp⟩

theorem witness_PopcCountsSetBits :
    step (withWord 0xC000#16 State.reset) = .next (after (step (withWord 0xC000#16 State.reset))) ∧ Instr.stat ≠ .cmp := ⟨rfl, by simp⟩

/-- At `CNT_W` = 3, one below the top. -/
theorem witness_InvariantForEveryCounterWidth :
    let a : Accumulator 3 := { Accumulator.empty 3 with acc := put8 (Accumulator.empty 3).acc 0 20#6, p := 0b1111#4, count := 6#3 }
    a.Inv ∧ a.atTop = false := by decide +kernel

theorem witness_NoSlotOverflows : (accumAt (2 ^ 32 - 1)).Inv := accumAt_inv _ (by decide)

theorem witness_SlotsNeverDecrease :
    let s := withWord 0x2061#16 (stateAt 4)
    s.Inv ∧ s.script = .command 0x2061#16 :: [] ∧ decode 0x2061#16 ≠ .ok .aclr ∧ step s = .next (after (step s)) :=
  ⟨⟨accumAt_inv 4 (by decide), by decide, by decide⟩, rfl, by decide, rfl⟩

/-- `ACLR`, `UPD` at the last count that is consumed and at the first that is not, another command, and reset. -/
theorem witness_CountIsWrittenOnlyByUpdAclrAndReset :
    (withWord 0x1000#16 (stateAt 4)).script = .command 0x1000#16 :: [] ∧ decode 0x1000#16 = .ok .aclr ∧
    decode 0x2061#16 = .ok (.upd 0x61#8) ∧ (stateAt (2 ^ 32 - 2)).accum.count.toNat < 2 ^ 32 - 1 ∧
    (stateAt (2 ^ 32 - 1)).accum.count.toNat = 2 ^ 32 - 1 ∧
    (decode 0x3000#16 ≠ .ok .aclr ∧ ∀ b, decode 0x3000#16 ≠ .ok (.upd b)) ∧
    ({ stateAt 4 with script := [.reset] } : State).script = .reset :: [] := by
  refine ⟨rfl, by decide, by decide, by decide, by decide, ⟨by decide, fun b => ?_⟩, rfl⟩
  have h : decode 0x3000#16 = .ok .dgst := by decide
  rw [h]
  simp

theorem witness_EachCommandWritesOnlyItsOwnRegisters :
    (Instr.stat ≠ .aclr ∧ (∀ b, Instr.stat ≠ .upd b) ∧ Instr.stat ≠ .dgst ∧ Instr.stat ≠ .clra ∧ (∀ v, Instr.stat ≠ .lda v) ∧
      Instr.stat ≠ .mva ∧ Instr.stat ≠ .clrb ∧ (∀ v, Instr.stat ≠ .ldb v) ∧ Instr.stat ≠ .mvb ∧ Instr.stat ≠ .cmp) ∧
    step (withWord 0x5000#16 State.reset) = .next (after (step (withWord 0x5000#16 State.reset))) :=
  ⟨by simp, rfl⟩

/-- A permutation that is not the spec's table: the identity. -/
theorem witness_EverySlotCanBeSelected : Function.Injective (at8 (tabulate 256 (BitVec.ofNat 8) : TranTable)) := by
  have h : ∀ i : Byte, at8 (tabulate 256 (BitVec.ofNat 8) : TranTable) i = i := by
    intro i
    simp [at8, tabulate]
  intro i j hij
  rwa [h, h] at hij

theorem witness_AclrEmptiesTheAccumulator : ({ State.reset with fault := 0b010#3 } : State).accum = State.reset.accum := rfl

/-- Every row of the table of R93 below the top, the last at both its ends, each with its presence pattern, and the top itself. -/
theorem witness_UpdConsumesOneSymbol :
    (∀ c ∈ [0, 1, 2, 3, 4, 2 ^ 32 - 2], (stateAt c).accum.count.toNat ≠ 2 ^ 32 - 1) ∧
    [0, 1, 2, 3, 4].map (fun c => (stateAt c).accum.p) = [0b0000#4, 0b0001#4, 0b0011#4, 0b0111#4, 0b1111#4] ∧
    (stateAt (2 ^ 32 - 2)).accum.p = 0b1111#4 ∧ (stateAt (2 ^ 32 - 1)).accum.count.toNat = 2 ^ 32 - 1 := by decide

theorem witness_UpdAtTheTopRaisesCountOverflow : (stateAt (2 ^ 32 - 1)).accum.count.toNat = 2 ^ 32 - 1 := by decide

/-- Every row of the table of R93, at both ends of the last. -/
theorem witness_UpdSlotsByOldCount :
    ∀ c ∈ [0, 1, 2, 3, 4, 2 ^ 32 - 2], (stateAt c).accum.Inv ∧ (stateAt c).accum.count.toNat ≠ 2 ^ 32 - 1 ∧
      (stateAt c).accum.count.toNat = c := by
  intro c hc
  refine ⟨accumAt_inv c ?_, ?_⟩ <;> fin_cases hc <;> decide

theorem witness_SlotGainsOncePerSelection :
    (stateAt 4).accum.Inv ∧ (stateAt 4).accum.count.toNat ≠ 2 ^ 32 - 1 := ⟨accumAt_inv 4 (by decide), by decide⟩

theorem witness_WindowHoldsTheLastSymbols : [0x61#8, 0x62#8, 0x63#8, 0x64#8, 0x65#8].length < 2 ^ 32 := by decide

/-- Two states with the same accumulator, and words that mix `UPD` with others. -/
theorem witness_ChunkingInvariance :
    State.reset.accum = ({ State.reset with fault := 0b010#3 } : State).accum ∧
    State.reset.tran = ({ State.reset with fault := 0b010#3 } : State).tran ∧
    ∀ w ∈ [0x2061#16, 0x3000#16, 0x2100#16, 0x2062#16, 0xC000#16], decode w ≠ .ok .aclr := by
  refine ⟨rfl, rfl, ?_⟩
  intro w hw
  fin_cases hw <;> decide

theorem witness_TotalIsThePiecewiseRule : 5 ≤ 5 ∧ 5 ≤ 2 ^ 32 - 1 := by decide

/-- Each range of R117 at its ends. -/
theorem witness_DigestCornerCases :
    ∀ c ∈ [0, 2, 3, 4, 5, 35, 36, 2 ^ 32 - 1], (stateAt c).accum.Inv ∧ (stateAt c).accum.count.toNat = c := by
  intro c hc
  refine ⟨accumAt_inv c ?_, ?_⟩ <;> fin_cases hc <;> decide

theorem witness_DgstIsNonDestructive :
    State.reset.accum = ({ State.reset with dg := Vector.replicate 32 0xFF#8 } : State).accum ∧
    ∀ w ∈ [0x3000#16, 0xC000#16, 0xFFFF#16], decode w ≠ .ok .aclr ∧ ∀ b, decode w ≠ .ok (.upd b) := by
  refine ⟨rfl, ?_⟩
  have h : ∀ w ∈ [0x3000#16, 0xC000#16, 0xFFFF#16], decode w ≠ .ok .aclr ∧ isUpdate w = false := by
    intro w hw
    fin_cases hw <;> decide
  intro w hw
  refine ⟨(h w hw).1, fun b hb => ?_⟩
  have := (h w hw).2
  simp [isUpdate, hb] at this

theorem witness_MachineComputesTheSourcesDigest : [0x61#8, 0x62#8, 0x63#8].length < 2 ^ 32 := by decide

theorem witness_CmpAnswersTheScore :
    (withOperands (filled 0xFF#8) (filled 0x0F#8)).opA.len = 32#6 ∧ (withOperands (filled 0xFF#8) (filled 0x0F#8)).opB.len = 32#6 ∧
    ¬ (State.reset.opA.len = 32#6 ∧ State.reset.opB.len = 32#6) := by
  decide

/-- Equal operands, operands that differ everywhere, and operands that differ in half the bits. -/
theorem witness_ScoreIs128LessHammingDistance :
    (withOperands (filled 0xFF#8) (filled 0x0F#8)).popc = Config.popc ∧
    (withOperands (filled 0xFF#8) (filled 0x0F#8)).opA.len = 32#6 ∧ (withOperands (filled 0xFF#8) (filled 0x0F#8)).opB.len = 32#6 ∧
    (filled 0xFF#8).bytes = (filled 0xFF#8).bytes ∧
    (∀ k, at5 (filled 0xFF#8).bytes k = ~~~ at5 (filled 0x00#8).bytes k) ∧
    hamming (filled 0xFF#8).bytes (filled 0x0F#8).bytes = 128 :=
  ⟨rfl, rfl, rfl, rfl, by decide +kernel, by decide +kernel⟩

/-- Lengths 0, 31 and 33, on either side. -/
theorem witness_CmpRefusesWrongLengths :
    (State.reset.opA.len ≠ 32#6 ∨ State.reset.opB.len ≠ 32#6) ∧
    ((withOperands (filled 0xAB#8) { filled 0xAB#8 with len := 31#6 }).opA.len ≠ 32#6 ∨
      (withOperands (filled 0xAB#8) { filled 0xAB#8 with len := 31#6 }).opB.len ≠ 32#6) ∧
    ((withOperands { filled 0xAB#8 with len := 33#6 } (filled 0xAB#8)).opA.len ≠ 32#6 ∨
      (withOperands { filled 0xAB#8 with len := 33#6 } (filled 0xAB#8)).opB.len ≠ 32#6) := by decide

theorem witness_ScoreProperties :
    (∀ k, at5 (filled 0xFF#8).bytes k ^^^ at5 (filled 0x0F#8).bytes k = at5 (filled 0xF0#8).bytes k ^^^ at5 (filled 0x00#8).bytes k) ∧
    (filled 0xFF#8).len = 32#6 ∧ (stateAt 5).popc = Config.popc :=
  ⟨by decide, rfl, rfl⟩

theorem witness_StatReportsTheSmallRegisters : (stateAt 3).accum.Inv ∧ present (stateAt 3).accum.p 3 = false :=
  ⟨accumAt_inv 3 (by decide), by decide⟩

/-- Each of the three errors. -/
theorem witness_ErrorEntryChangesOnlyFault :
    (∃ t r, step (withWord 0xC000#16 State.reset) = .next t ∧ t.responses = r :: State.reset.responses ∧ r.status = .invalidDigestLength) ∧
    (∃ t r, step (withWord 0x0000#16 State.reset) = .next t ∧ t.responses = r :: State.reset.responses ∧ r.status = .illegalCommand) ∧
    (∃ t r, step (withWord 0x2000#16 (stateAt (2 ^ 32 - 1))) = .next t ∧ t.responses = r :: (stateAt (2 ^ 32 - 1)).responses ∧
      r.status = .countOverflow) :=
  ⟨⟨_, _, rfl, rfl, rfl⟩, ⟨_, _, rfl, rfl, rfl⟩,
    ⟨raise .countOverflow (issued [] (withWord 0x2000#16 (stateAt (2 ^ 32 - 1)))), ⟨.countOverflow, 0⟩, by
      rw [step_command _ 0x2000#16 [] rfl, execWord_decoded _ (.upd 0x00#8) _ (by decide)]
      exact exec_upd_top _ _ (by decide), rfl, rfl⟩⟩

theorem witness_ErrorsAreExactlyThese : (withWord 0xC000#16 State.reset).script = .command 0xC000#16 :: [] := rfl

theorem witness_FaultIsStickyAndOnlyRecords :
    let s : State := { withWord 0x0000#16 State.reset with fault := 0b100#3 }
    s.script = .command 0x0000#16 :: [] ∧ step s = .next (after (step s)) ∧ s.fault.getLsbD 2 = true :=
  ⟨rfl, rfl, by decide⟩

theorem witness_RepeatedCommandsAreIdempotent : Instr.mvb = .mvb ∧ ∃ j, Instr.rdh 0xFF#8 = .rdh j := ⟨rfl, _, rfl⟩

end Sys2Proof.Tests
end

/-! The commands of a stream, one step each, and the accumulator they leave (spec/00_scope.md R6, 41_accumulator.md R91 to R95). -/

namespace Sys2Proof.Machine

/-! ### Decoding what was encoded, and the step that runs it -/

@[simp] theorem ofWord_assemble (op : BitVec 4) (imm : Byte) :
    RawCommand.ofWord (assemble op imm) = { op := op, z := 0#4, imm := imm } := by
  have hop : (assemble op imm).extractLsb' 12 4 = op := extract_append_high op (0#4 ++ imm)
  have hz : (assemble op imm).extractLsb' 8 4 = 0#4 :=
    (extract_append_low op (0#4 ++ imm) 8 4 (by decide)).trans (extract_append_high 0#4 imm)
  have himm : (assemble op imm).extractLsb' 0 8 = imm :=
    (extract_append_low op (0#4 ++ imm) 0 8 (by decide)).trans
      ((extract_append_low 0#4 imm 0 8 (by decide)).trans (extract_self imm))
  simp only [RawCommand.ofWord, hop, hz, himm]

theorem decode_assemble (op : BitVec 4) (imm : Byte) : decode (assemble op imm) = decodeOp op.toNat imm := by
  simp [decode]

theorem decode_encode (i : Instr) : decode (encode i) = .ok i := by
  cases i <;> exact decode_assemble _ _

theorem execWord_encode (i : Instr) (s : State) : execWord (encode i) s = exec i s :=
  execWord_decoded _ _ _ (decode_encode i)

/-- A 16-bit word survives the host's passing it as a number (log entry 4). -/
theorem withFetchWord_script (s : State) (w : CommandWord) :
    (s.withFetchWord 16 w.toNat).script = .command w :: s.script := by
  simp only [State.withFetchWord, Nat.mod_eq_of_lt w.isLt, BitVec.ofNat_toNat, BitVec.setWidth_eq]

theorem issued_withFetchWord (s : State) (nbits w : Nat) : issued s.script (s.withFetchWord nbits w) = s := rfl

/-- Settles O8: a step takes the host's next event and executes the word, and `withFetchWord` puts a word there. -/
theorem stepRunsTheDecodedCommand : Obligations.StepRunsTheDecodedCommand := by
  constructor
  · intro s w rest i hs hi
    rw [step_command s w rest hs, execWord_decoded w i _ hi]
    rfl
  · intro s w i hi
    rw [step_command _ _ _ (withFetchWord_script s w), issued_withFetchWord, execWord_decoded w i s hi]

/-! ### A stream of `UPD`s -/

/-- The accumulator after the symbols of a stream, one after another. -/
def Accumulator.consumeAll {n : Nat} (t : TranTable) (bs : List Byte) (a : Accumulator n) : Accumulator n :=
  bs.foldl (fun a b => a.consume t b) a

@[simp] theorem consumeAll_nil {n : Nat} (t : TranTable) (a : Accumulator n) : a.consumeAll t [] = a := rfl

@[simp] theorem consumeAll_cons {n : Nat} (t : TranTable) (b : Byte) (bs : List Byte) (a : Accumulator n) :
    a.consumeAll t (b :: bs) = (a.consume t b).consumeAll t bs := rfl

@[simp] theorem updates_length (bs : List Byte) : (updates bs).length = bs.length := by
  simp [updates]

/-- A stream that stays below the top of the counter is consumed symbol by symbol, one `OK` response each. -/
theorem stepN_updates (bs : List Byte) (s : State) (h : s.accum.count.toNat + bs.length < 2 ^ 32) :
    stepN bs.length (issue (updates bs) s) =
      .next { s with
        accum := s.accum.consumeAll s.tran bs
        responses := List.replicate bs.length ⟨.ok, 0⟩ ++ s.responses } := by
  induction bs generalizing s with
  | nil => rfl
  | cons b bs ih =>
    rw [List.length_cons] at h
    have htop : s.accum.atTop = false := (atTop_eq_false _).2 (show s.accum.count.toNat + 1 < 2 ^ 32 by omega)
    have hexec := (execWord_encode (.upd b) s).trans (exec_upd_below b s htop)
    have hcount := consume_count_toNat s.tran b s.accum htop
    have hrest := ih (respond 0 { s with accum := s.accum.consume s.tran b })
      (by rw [respond_accum, hcount]; omega)
    rw [List.length_cons, updates, List.map_cons, stepN_issue_cons _ _ _ _ _ hexec]
    refine hrest.trans ?_
    simp [respond, List.replicate_succ', List.append_assoc]

/-- `ACLR` and a stream: the accumulator is that of the stream alone, whatever stood there before (R90). -/
theorem stepN_aclr_updates (bs : List Byte) (s : State) (h : bs.length < 2 ^ 32) :
    stepN (bs.length + 1) (issue (encode .aclr :: updates bs) s) =
      .next { s with
        accum := (Accumulator.empty Config.cntW).consumeAll s.tran bs
        responses := List.replicate (bs.length + 1) ⟨.ok, 0⟩ ++ s.responses } := by
  have hexec := (execWord_encode .aclr s).trans (exec_aclr s)
  have hcount : (Accumulator.empty Config.cntW).count.toNat = 0 := rfl
  rw [stepN_issue_cons _ _ _ _ _ hexec, stepN_updates bs _ (by rw [respond_accum, hcount]; omega)]
  simp [respond, List.replicate_succ', List.append_assoc]

/-- `ACLR`, a stream and `DGST`: the digest of the stream's accumulator goes to `DG` and is the last response. -/
theorem stepN_aclr_updates_dgst (bs : List Byte) (s : State) (h : bs.length < 2 ^ 32) :
    stepN (bs.length + 2) (issue (encode .aclr :: (updates bs ++ [encode .dgst])) s) =
      let a := (Accumulator.empty Config.cntW).consumeAll s.tran bs
      .next (respond (packDigest (buildDigest a))
        { s with
          accum := a
          dg := buildDigest a
          responses := List.replicate (bs.length + 1) ⟨.ok, 0⟩ ++ s.responses }) := by
  have hstream := stepN_aclr_updates bs s h
  rw [← updates_length bs, ← List.length_cons (a := encode .aclr)] at hstream
  have hrun := stepN_issue_append _ [encode .dgst] _ _ hstream
  rw [List.length_cons, updates_length] at hrun
  refine hrun.trans ((stepN_issue_cons 0 _ [] _ _ ((execWord_encode .dgst _).trans (exec_dgst _))).trans ?_)
  rfl

/-! ### What the accumulator holds of a stream -/

/-- The accumulator has consumed the symbols `seen`, newest first, as far as its counter, flags and window say: the
count is their number, a position is present when there is a symbol that old, and an absent one reads as 0x00
(10_state.md R15 to R17). -/
structure Accumulator.HasSeen {n : Nat} (a : Accumulator n) (seen : List Byte) : Prop where
  count : a.count = BitVec.ofNat n seen.length
  present : ∀ k : Fin 4, present a.p k.val = decide (k.val < seen.length)
  window : ∀ k : Fin 4, a.w[k.val] = seen.getD k.val 0#8

theorem empty_hasSeen (n : Nat) : (Accumulator.empty n).HasSeen [] where
  count := rfl
  present k := by simp [present]
  window k := by simp [Accumulator.empty]

theorem consume_hasSeen {n : Nat} {a : Accumulator n} {seen : List Byte} (h : a.HasSeen seen) (t : TranTable)
    (b : Byte) : (a.consume t b).HasSeen (b :: seen) where
  count := by simp [h.count, BitVec.ofNat_add]
  present k := by
    refine Fin.cases ?_ (fun k => ?_) k
    · simp [present_shift_zero]
    · simpa [present_shift_succ _ _ k.isLt] using h.present k.castSucc
  window k := by
    have hw := h.window
    match k with
    | 0 => rfl
    | 1 => exact hw 0
    | 2 => exact hw 1
    | 3 => exact hw 2

theorem consumeAll_hasSeen {n : Nat} {a : Accumulator n} {seen : List Byte} (h : a.HasSeen seen) (t : TranTable)
    (bs : List Byte) : (a.consumeAll t bs).HasSeen (bs.reverse ++ seen) := by
  induction bs generalizing a seen with
  | nil => exact h
  | cons b bs ih => simpa using ih (consume_hasSeen h t b)

end Sys2Proof.Machine

/-! The machine against the source's algorithm (spec/00_scope.md R5): the mixer, the slots of one symbol, the histogram of a
stream, and the digest. -/

namespace Sys2Proof.Machine

/-! ### The mixer (40_mixer.md R80) -/

theorem source_sub_toNat (t : TranTable) (x : Byte) : Source.sub t x.toNat = (at8 t x).toNat := by
  have hx : x.toNat < (t.toList.map BitVec.toNat).length := by simp [x.isLt]
  rw [Source.sub, List.getD_eq_getElem _ _ hx]
  simp [at8]

/-- The odd multiplier `2n + 1` of the mixer fits in a byte (R84). -/
theorem mixMultiplier_toNat (n : Fin 8) : (2 * BitVec.ofNat 8 n.val + 1 : Byte).toNat = 2 * n.val + 1 := by
  revert n; decide

/-- One reduction at the end gives what the 8-bit arithmetic gives (R82). -/
theorem mix_toNat (t : TranTable) (a b c : Byte) (n : Fin 8) :
    (mix t a b c n).toNat = Source.mix t a.toNat b.toNat c.toNat n.val := by
  have hn : (BitVec.ofNat 8 n.val).toNat = n.val := Nat.mod_eq_of_lt (by omega)
  have hx : Source.sub t ((a.toNat + n.val) % 256) = (at8 t (a + BitVec.ofNat 8 n.val)).toNat := by
    rw [← source_sub_toNat, BitVec.toNat_add, hn]
  have hz : Source.sub t (c.toNat ^^^ Source.sub t n.val) =
      (at8 t (c ^^^ at8 t (BitVec.ofNat 8 n.val))).toNat := by
    rw [← source_sub_toNat t (_ ^^^ _), BitVec.toNat_xor, ← source_sub_toNat, hn]
  have hxor (x : Byte) (m : Nat) : (x.toNat ^^^ m) % 2 ^ 8 = x.toNat ^^^ m % 2 ^ 8 := by
    rw [Nat.xor_mod_two_pow, Nat.mod_eq_of_lt x.isLt]
  rw [mix, Source.mix, hx, hz, source_sub_toNat, BitVec.toNat_add, BitVec.toNat_xor, BitVec.toNat_mul,
    mixMultiplier_toNat, ← hxor, Nat.mod_add_mod]
  rfl

/-! ### The slots of one symbol (41_accumulator.md R91, R93) -/

/-- The presence flags select the slots that the source selects by how many symbols came before. -/
theorem selectedSlots_toNat {n : Nat} {a : Accumulator n} {seen : List Byte} (h : a.HasSeen seen) (t : TranTable)
    (b : Byte) :
    (selectedSlots t b a.w a.p).map BitVec.toNat = Source.slots t b.toNat (seen.map BitVec.toNat) := by
  obtain ⟨p0, p1, p2, p3, p4⟩ := presence_pattern a.p seen.length h.present
  have w0 : a.w[0] = seen.getD 0 0#8 := h.window 0
  have w1 : a.w[1] = seen.getD 1 0#8 := h.window 1
  have w2 : a.w[2] = seen.getD 2 0#8 := h.window 2
  have w3 : a.w[3] = seen.getD 3 0#8 := h.window 3
  rcases seen with _ | ⟨s0, _ | ⟨s1, _ | ⟨s2, _ | ⟨s3, older⟩⟩⟩⟩
  · rw [p0 rfl]; rfl
  · rw [p1 rfl]; rfl
  · rw [p2 rfl, selectedSlots_two, w0, w1]
    simp [Source.slots, mix_toNat]
  · rw [p3 rfl, selectedSlots_three, w0, w1, w2]
    simp [Source.slots, mix_toNat]
  · rw [p4 (by simp), selectedSlots_four, w0, w1, w2, w3]
    simp [Source.slots, mix_toNat]

/-! ### The histogram of a stream -/

/-- Every slot gains what the source's rest of the stream increments it, in the width of a slot. -/
theorem consumeAll_at8 {n : Nat} {a : Accumulator n} {seen : List Byte} (h : a.HasSeen seen) (t : TranTable)
    (bs : List Byte) (i : Byte) :
    at8 (a.consumeAll t bs).acc i = at8 a.acc i +
      BitVec.ofNat (n + 3) ((Source.increments t (seen.map BitVec.toNat) (bs.map BitVec.toNat)).count i.toNat) := by
  induction bs generalizing a seen with
  | nil => simp [Source.increments]
  | cons b bs ih =>
    have hcount : (selectedSlots t b a.w a.p).count i =
        (Source.slots t b.toNat (seen.map BitVec.toNat)).count i.toNat := by
      rw [← selectedSlots_toNat h, List.count_map_of_injective _ _ (fun _ _ => BitVec.eq_of_toNat_eq)]
    rw [consumeAll_cons, ih (consume_hasSeen h t b), consume_acc, bumpAll_at8, hcount, BitVec.add_assoc,
      ← BitVec.ofNat_add, ← List.count_append]
    rfl

/-- "up to 8 trigram-mixer invocations per symbol" (00_scope.md R5), in the source. -/
theorem source_slots_length_le (t : TranTable) (sym : Nat) (before : List Nat) :
    (Source.slots t sym before).length ≤ 8 := by
  match before with
  | [] | [_] | [_, _] | [_, _, _] | _ :: _ :: _ :: _ :: _ => simp [Source.slots]

theorem source_increments_length_le (t : TranTable) (stream before : List Nat) :
    (Source.increments t before stream).length ≤ 8 * stream.length := by
  induction stream generalizing before with
  | nil => simp [Source.increments]
  | cons sym rest ih =>
    have hslots := source_slots_length_le t sym before
    have hrest := ih (sym :: before)
    rw [Source.increments, List.length_append, List.length_cons]
    omega

/-- A histogram value fits in a slot of `CNT_W + 3` bits (10_state.md R14). -/
theorem source_histogram_lt (t : TranTable) (stream : List Nat) (i n : Nat) (h : stream.length < 2 ^ n) :
    Source.histogram t stream i < 2 ^ (n + 3) := by
  have hcount : Source.histogram t stream i ≤ (Source.increments t [] stream).length := List.count_le_length
  have hlength := source_increments_length_le t stream []
  rw [Nat.pow_add]
  omega

/-- From the empty accumulator the slots hold the source's histogram, with no wrap. -/
theorem empty_consumeAll_at8_toNat (n : Nat) (t : TranTable) (bs : List Byte) (i : Byte) (h : bs.length < 2 ^ n) :
    (at8 ((Accumulator.empty n).consumeAll t bs).acc i).toNat =
      Source.histogram t (bs.map BitVec.toNat) i.toNat := by
  have hlt := source_histogram_lt t (bs.map BitVec.toNat) i.toNat n (by simpa using h)
  rw [consumeAll_at8 (empty_hasSeen n) t bs i, empty_acc_at8]
  simpa [Source.histogram] using Nat.mod_eq_of_lt hlt

theorem empty_consumeAll_count_toNat (n : Nat) (t : TranTable) (bs : List Byte) (h : bs.length < 2 ^ n) :
    ((Accumulator.empty n).consumeAll t bs).count.toNat = bs.length := by
  rw [(consumeAll_hasSeen (empty_hasSeen n) t bs).count]
  simpa using Nat.mod_eq_of_lt h

/-! ### The digest (42_digest_builder.md R111, R113) -/

/-- The closed form of `total` is the source's, row by row. -/
theorem source_total_eq (c : Nat) : Source.total c = total c := by
  match c with
  | 0 | 1 | 2 | 3 | 4 => rfl
  | c + 5 => exact (total_of_five_le (c + 5) (by omega)).symm

/-- The engine's integer comparison is the real-valued one (R113). -/
theorem aboveMean_iff_div_lt (total slot : Nat) : aboveMean total slot = true ↔ (total : ℚ) / 256 < slot := by
  rw [aboveMean, decide_eq_true_iff, div_lt_iff₀' (by norm_num)]
  exact_mod_cast Iff.rfl

/-- The digest bits of an accumulator that consumed the stream from empty are the source's. -/
theorem digestBit_empty_consumeAll (n : Nat) (t : TranTable) (bs : List Byte) (i : Byte) (h : bs.length < 2 ^ n) :
    digestBit ((Accumulator.empty n).consumeAll t bs) i = true ↔
      Source.digestBit t (bs.map BitVec.toNat) i.toNat := by
  rw [digestBit, aboveMean_iff_div_lt, empty_consumeAll_at8_toNat n t bs i h, empty_consumeAll_count_toNat n t bs h,
    ← source_total_eq, Source.digestBit, List.length_map]

/-- The place of slot `i` in `DG` (R115). -/
theorem buildDigest_slot_bit {n : Nat} (a : Accumulator n) (i : Byte) :
    (at5 (buildDigest a) (BitVec.ofNat 5 (31 - i.toNat / 8))).getLsbD (i.toNat % 8) = digestBit a i := by
  rw [← packDigest_getLsbD _ _ i.isLt, packDigest_buildDigest_getLsbD a _ i.isLt]
  simp

/-- Settles O40: the run leaves the accumulator of the stream, which holds the source's histogram and gives the
source's digest bits. -/
theorem machineComputesTheSourcesDigest : Obligations.MachineComputesTheSourcesDigest := by
  intro s bs h
  refine ⟨_, stepN_aclr_updates_dgst bs s h, fun i => ?_, fun i => ?_, rfl⟩
  · exact empty_consumeAll_at8_toNat _ s.tran bs i h
  · rw [respond_dg, buildDigest_slot_bit]
    exact digestBit_empty_consumeAll _ s.tran bs i h

end Sys2Proof.Machine

/-! What one step can do, said once, and what each command leaves unchanged (spec/10_state.md R10, R18). -/

namespace Sys2Proof.Machine

/-! ### What a step and a word can do -/

theorem step_cases {s t : State} (h : step s = .next t) :
    (s.script = [] ∧ t = s) ∨
    (∃ rest, s.script = .reset :: rest ∧ t = takeReset (issued rest s)) ∨
    ∃ w rest, s.script = .command w :: rest ∧ execWord w (issued rest s) = .next t := by
  match hs : s.script with
  | [] => rw [step_no_event s hs] at h; cases h; exact .inl ⟨rfl, rfl⟩
  | .reset :: rest => rw [step_reset s rest hs] at h; cases h; exact .inr (.inl ⟨rest, rfl, rfl⟩)
  | .command w :: rest => rw [step_command s w rest hs] at h; exact .inr (.inr ⟨w, rest, rfl, h⟩)

theorem execWord_cases {w : CommandWord} {s t : State} (h : execWord w s = .next t) :
    ((∃ e, decode w = .error e) ∧ t = raise .illegalCommand s) ∨ ∃ i, decode w = .ok i ∧ exec i s = .next t := by
  cases hw : decode w with
  | error e => rw [execWord_illegal w e s hw] at h; cases h; exact .inl ⟨⟨e, rfl⟩, rfl⟩
  | ok i => rw [execWord_decoded w i s hw] at h; exact .inr ⟨i, rfl, h⟩

theorem exec_upd_cases {b : Byte} {s t : State} (h : exec (.upd b) s = .next t) :
    (s.accum.atTop = true ∧ t = raise .countOverflow s) ∨
    (s.accum.atTop = false ∧ t = respond 0 { s with accum := s.accum.consume s.tran b }) := by
  cases htop : s.accum.atTop with
  | true => rw [exec_upd_top b s htop] at h; cases h; exact .inl ⟨rfl, rfl⟩
  | false => rw [exec_upd_below b s htop] at h; cases h; exact .inr ⟨rfl, rfl⟩

theorem exec_cmp_cases {s t : State} (h : exec .cmp s = .next t) :
    ((s.opA.isDigest && s.opB.isDigest) = false ∧ t = raise .invalidDigestLength s) ∨
    (s.opA.isDigest = true ∧ s.opB.isDigest = true ∧
      t = respond (scorePayload (score s.popc s.opA.bytes s.opB.bytes)) s) := by
  cases hd : s.opA.isDigest && s.opB.isDigest with
  | false => rw [exec_cmp_wrong s hd] at h; cases h; exact .inl ⟨rfl, rfl⟩
  | true =>
    obtain ⟨ha, hb⟩ := Bool.and_eq_true_iff.1 hd
    rw [exec_cmp_digests s ha hb] at h; cases h; exact .inr ⟨ha, hb, rfl⟩

/-! ### Frames -/

/-- Every command completes with one response more; the ROMs and the host's events to come stay. -/
theorem exec_next (i : Instr) (s : State) :
    ∃ t r, exec i s = .next t ∧ t.tran = s.tran ∧ t.popc = s.popc ∧ t.script = s.script ∧
      t.responses = r :: s.responses := by
  rcases exec_cases i s with ⟨e, h, -⟩ | ⟨v, a, d, x, y, h⟩ <;> exact ⟨_, _, h, rfl, rfl, rfl, rfl⟩

/-- The registers that the command `i` does not own (10_state.md R10, column "Written by") are in `t` as in `s`. -/
structure OwnsItsWrites (i : Instr) (s t : State) : Prop where
  accum : i ≠ .aclr → (∀ b, i ≠ .upd b) → t.accum = s.accum
  dg : i ≠ .dgst → t.dg = s.dg
  opA : i ≠ .clra → (∀ v, i ≠ .lda v) → i ≠ .mva → t.opA = s.opA
  opB : i ≠ .clrb → (∀ v, i ≠ .ldb v) → i ≠ .mvb → t.opB = s.opB
  fault : i ≠ .cmp → (∀ b, i ≠ .upd b) → t.fault = s.fault

theorem exec_ownsItsWrites {i : Instr} {s t : State} (h : exec i s = .next t) : OwnsItsWrites i s t := by
  cases i with
  | upd b => obtain ⟨-, rfl⟩ | ⟨-, rfl⟩ := exec_upd_cases h <;> constructor <;> simp
  | cmp => obtain ⟨-, rfl⟩ | ⟨-, -, rfl⟩ := exec_cmp_cases h <;> constructor <;> simp
  | _ => cases h; constructor <;> simp

/-- A word that is neither `ACLR` nor a `UPD`, legal or not, leaves the accumulator (R18). -/
theorem execWord_accum_eq {w : CommandWord} {s t : State} (h : execWord w s = .next t)
    (haclr : decode w ≠ .ok .aclr) (hupd : ∀ b, decode w ≠ .ok (.upd b)) : t.accum = s.accum := by
  obtain ⟨-, rfl⟩ | ⟨i, hi, hexec⟩ := execWord_cases h
  · exact raise_accum _ s
  · rw [hi] at haclr hupd
    exact (exec_ownsItsWrites hexec).accum (by simpa using haclr) (by simpa using hupd)

/-- No step writes a ROM, whatever event it takes (R12, R13). -/
theorem step_roms {s t : State} (h : step s = .next t) : t.tran = s.tran ∧ t.popc = s.popc := by
  obtain ⟨-, rfl⟩ | ⟨rest, -, rfl⟩ | ⟨w, rest, -, hword⟩ := step_cases h
  · exact ⟨rfl, rfl⟩
  · exact ⟨rfl, rfl⟩
  · obtain ⟨u, hu, -, htran, hpopc⟩ := execWord_next w (issued rest s)
    cases hword.symm.trans hu
    exact ⟨htran, hpopc⟩

/-- A command does the same with other ROMs, if `UPD` is left its `TRAN` and `CMP` its `POPC`. -/
theorem exec_with_roms {i : Instr} {s t : State} (x : TranTable) (y : PopcTable) (h : exec i s = .next t)
    (hx : ∀ b, i = .upd b → x = s.tran) (hy : i = .cmp → y = s.popc) :
    exec i { s with tran := x, popc := y } = .next { t with tran := x, popc := y } := by
  cases i with
  | upd b =>
    obtain rfl := hx b rfl
    obtain ⟨htop, rfl⟩ | ⟨htop, rfl⟩ := exec_upd_cases h
    · exact exec_upd_top b _ htop
    · exact exec_upd_below b _ htop
  | cmp =>
    obtain rfl := hy rfl
    obtain ⟨hd, rfl⟩ | ⟨ha, hb, rfl⟩ := exec_cmp_cases h
    · exact exec_cmp_wrong _ hd
    · exact exec_cmp_digests _ ha hb
  | _ => cases h; rfl

/-- Settles O20: the frame of each command, and over every event the accumulator is left unless it is a reset, an
`ACLR` or a `UPD`. -/
theorem eachCommandWritesOnlyItsOwnRegisters : Obligations.EachCommandWritesOnlyItsOwnRegisters := by
  constructor
  · intro i s
    obtain ⟨t, r, h, hrest⟩ := exec_next i s
    obtain ⟨haccum, hdg, hopA, hopB, hfault⟩ := exec_ownsItsWrites h
    exact ⟨t, r, h, haccum, hdg, hopA, hopB, hfault, hrest⟩
  · intro s t h
    obtain ⟨-, rfl⟩ | ⟨rest, hs, -⟩ | ⟨w, rest, hs, hword⟩ := step_cases h
    · exact .inl rfl
    · exact .inr (.inl ⟨rest, hs⟩)
    · by_cases hw : decode w = .ok .aclr ∨ ∃ b, decode w = .ok (.upd b)
      · exact .inr (.inr ⟨w, rest, hs, hw⟩)
      · rw [not_or, not_exists] at hw
        exact .inl ((execWord_accum_eq hword hw.1 hw.2).trans (issued_accum rest s))

end Sys2Proof.Machine

/-! The invariant of reachable states (spec/10_state.md R14 to R20, 41_accumulator.md R97): it holds at reset, and every step
keeps it. -/

namespace Sys2Proof.Machine

/-! ### The accumulator's part -/

theorem empty_inv (n : Nat) : (Accumulator.empty n).Inv := by
  refine ⟨fun k => ?_, fun k _ => ?_, ?_⟩
  · simp [present]
  · simp [Accumulator.empty]
  · simp only [Accumulator.slotSum, Accumulator.empty, Vector.toList_replicate, List.map_replicate, List.sum_replicate]
    simp [total]

/-- `total(COUNT)` after one more symbol still fits in a slot, so no increment of a symbol wraps. -/
theorem slotSum_add_selected_lt {n : Nat} {a : Accumulator n} (h : a.Inv) (htop : a.atTop = false) (t : TranTable)
    (b : Byte) : a.slotSum + (selectedSlots t b a.w a.p).length < 2 ^ (n + 3) := by
  have ⟨_, _, hsum⟩ := h
  rw [hsum, ← total_succ a h]
  exact total_lt n _ ((atTop_eq_false a).1 htop)

/-- Below the top of the counter a consumed symbol keeps the invariant, for every width of `COUNT`. -/
theorem consume_inv {n : Nat} {a : Accumulator n} (h : a.Inv) (htop : a.atTop = false) (t : TranTable) (b : Byte) :
    (a.consume t b).Inv := by
  have ⟨hpresent, habsent, hsum⟩ := h
  refine ⟨fun k => ?_, fun k => ?_, ?_⟩
  · rw [consume_count_toNat t b a htop, consume_p]
    refine Fin.cases ?_ (fun k => ?_) k
    · simp [present_shift_zero]
    · simpa [present_shift_succ _ _ k.isLt] using hpresent k.castSucc
  · match k with
    | 0 => simp [present_shift_zero]
    | 1 => simpa [present_shift_succ] using habsent 0
    | 2 => simpa [present_shift_succ] using habsent 1
    | 3 => simpa [present_shift_succ] using habsent 2
  · rw [consume_count_toNat t b a htop, total_succ a h t b, ← hsum]
    exact sum_bumpAll _ _ (slotSum_add_selected_lt h htop t b)

/-! ### The machine's -/

theorem reset_inv : State.reset.Inv :=
  ⟨empty_inv _, buffer_empty_inv, buffer_empty_inv⟩

theorem exec_inv {i : Instr} {s t : State} (hs : s.Inv) (h : exec i s = .next t) : t.Inv := by
  have ⟨haccum, hA, hB⟩ := hs
  cases i with
  | aclr => cases h; exact ⟨empty_inv _, hA, hB⟩
  | upd b =>
    obtain ⟨-, rfl⟩ | ⟨htop, rfl⟩ := exec_upd_cases h
    · exact hs
    · exact ⟨consume_inv haccum htop s.tran b, hA, hB⟩
  | clra => cases h; exact ⟨haccum, buffer_empty_inv, hB⟩
  | clrb => cases h; exact ⟨haccum, hA, buffer_empty_inv⟩
  | lda v => cases h; exact ⟨haccum, append_inv s.opA v hA, hB⟩
  | ldb v => cases h; exact ⟨haccum, hA, append_inv s.opB v hB⟩
  | mva => cases h; exact ⟨haccum, ofDigest_inv s.dg, hB⟩
  | mvb => cases h; exact ⟨haccum, hA, ofDigest_inv s.dg⟩
  | cmp => obtain ⟨-, rfl⟩ | ⟨-, -, rfl⟩ := exec_cmp_cases h <;> exact hs
  | dgst | rdh _ | stat => cases h; exact hs

theorem execWord_inv {w : CommandWord} {s t : State} (hs : s.Inv) (h : execWord w s = .next t) : t.Inv := by
  obtain ⟨-, rfl⟩ | ⟨i, -, hexec⟩ := execWord_cases h
  · exact hs
  · exact exec_inv hs hexec

/-- Settles O15, by what a step can do: wait, take the reset event, or execute a word. -/
theorem everyStepKeepsTheInvariant : Obligations.EveryStepKeepsTheInvariant := by
  intro s t hs h
  obtain ⟨-, rfl⟩ | ⟨rest, -, rfl⟩ | ⟨w, rest, -, hword⟩ := step_cases h
  · exact hs
  · exact reset_inv
  · exact execWord_inv (s := issued rest s) hs hword

/-- Settles O14: the empty accumulator and the empty operand buffers have their parts of the invariant. -/
theorem invariantHoldsAtReset : Obligations.InvariantHoldsAtReset :=
  ⟨reset_inv, ⟨rfl, rfl⟩, rfl⟩

/-- Settles O17: a slot is at most the sum of all, which the invariant gives as `total(COUNT)`. -/
theorem noSlotOverflows : Obligations.NoSlotOverflows := by
  intro n a ⟨_, _, hsum⟩
  exact ⟨fun i => hsum ▸ slot_le_sum a.acc i, total_lt n _ a.count.isLt⟩

end Sys2Proof.Machine

/-! `COUNT`, `FAULT`, the values after reset, and the two ROMs (spec/10_state.md R11 to R13, R17, R22, R25). -/

namespace Sys2Proof.Machine

/-! ### `COUNT` (R17) -/

/-- Settles O19: one clause per word that may write `COUNT`, and the frame for every other word. -/
theorem countIsWrittenOnlyByUpdAclrAndReset : Obligations.CountIsWrittenOnlyByUpdAclrAndReset := by
  constructor
  · intro s w rest hs
    obtain ⟨t, h, -⟩ := execWord_next w (issued rest s)
    refine ⟨t, (step_command s w rest hs).trans h, fun hw => ?_, fun b hw hc => ?_, fun b hw hc => ?_,
      fun haclr hupd => by rw [execWord_accum_eq h haclr hupd, issued_accum]⟩
    all_goals rw [execWord_decoded _ _ _ hw] at h
    · cases h; rfl
    · obtain ⟨htop, -⟩ | ⟨htop, rfl⟩ := exec_upd_cases h
      · have : s.accum.count.toNat + 1 = 2 ^ 32 := (atTop_eq_true _).1 htop
        omega
      · exact consume_count_toNat _ b _ htop
    · obtain ⟨-, rfl⟩ | ⟨htop, -⟩ := exec_upd_cases h
      · rfl
      · have : s.accum.count.toNat + 1 < 2 ^ 32 := (atTop_eq_false _).1 htop
        omega
  · exact fun s rest hs => ⟨_, step_reset s rest hs, rfl⟩

/-! ### `FAULT` (R22, R23) -/

theorem execWord_fault_sticky {w : CommandWord} {s t : State} {k : Nat} (h : execWord w s = .next t)
    (hk : s.fault.getLsbD k = true) : t.fault.getLsbD k = true := by
  obtain ⟨-, rfl⟩ | ⟨i, -, hexec⟩ := execWord_cases h
  · exact setFault_sticky _ _ k hk
  · obtain ⟨e, he, -⟩ | ⟨v, a, d, x, y, hr⟩ := exec_cases i s
    · cases hexec.symm.trans he
      exact setFault_sticky _ e k hk
    · cases hexec.symm.trans hr
      exact hk

/-- With another value in `FAULT` a command writes the same registers and, unless it is `STAT`, responds the same. -/
theorem exec_with_fault {i : Instr} {s t : State} (f : BitVec 3) (h : exec i s = .next t) :
    ∃ t', exec i { s with fault := f } = .next t' ∧
      { t' with fault := t.fault, responses := t.responses } = t ∧ (i ≠ .stat → t'.responses = t.responses) := by
  cases i with
  | upd b =>
    obtain ⟨htop, rfl⟩ | ⟨htop, rfl⟩ := exec_upd_cases h
    · exact ⟨_, exec_upd_top b _ htop, rfl, fun _ => rfl⟩
    · exact ⟨_, exec_upd_below b _ htop, rfl, fun _ => rfl⟩
  | cmp =>
    obtain ⟨hd, rfl⟩ | ⟨ha, hb, rfl⟩ := exec_cmp_cases h
    · exact ⟨_, exec_cmp_wrong _ hd, rfl, fun _ => rfl⟩
    · exact ⟨_, exec_cmp_digests _ ha hb, rfl, fun _ => rfl⟩
  | stat => cases h; exact ⟨_, rfl, rfl, fun hne => absurd rfl hne⟩
  | _ => cases h; exact ⟨_, rfl, rfl, fun _ => rfl⟩

/-- Settles O57: a word sets `FAULT` bits by OR only, and no command but `STAT` reads them. -/
theorem faultIsStickyAndOnlyRecords : Obligations.FaultIsStickyAndOnlyRecords := by
  constructor
  · intro s t w rest k hs h hk
    rw [step_command s w rest hs] at h
    exact execWord_fault_sticky h hk
  · intro i s f
    obtain ⟨t, -, h, -⟩ := exec_next i s
    obtain ⟨t', h', hsame⟩ := exec_with_fault f h
    exact ⟨t, t', h, h', hsame⟩

/-! ### Reset (R25) -/

/-- With intact ROMs the reset event leaves the reset state, the host's lists put aside (log entry 13). -/
theorem takeReset_eq_reset {s : State} (h : s.RomsIntact) :
    { takeReset s with script := [], responses := [] } = State.reset := by
  obtain ⟨htran, hpopc⟩ := h
  simp only [takeReset, htran, hpopc]
  rfl

/-- Settles O11: the reset state register by register, and what the reset event and `ACLR` leave. -/
theorem resetValues : Obligations.ResetValues := by
  refine ⟨rfl, rfl, empty_acc_at8 _, rfl, fun k => ?_, rfl, at5_replicate _, at5_replicate _, at5_replicate _,
    rfl, rfl, rfl, fun s rest hs hroms => ?_, fun s => ⟨_, exec_aclr s, rfl⟩⟩
  · simp [State.reset, Accumulator.empty]
  · exact ⟨_, step_reset s rest hs, takeReset_eq_reset (s := issued rest s) hroms⟩

/-! ### `TRAN` (R11, R12) -/

theorem at8_injective_of_nodup {α : Type} {t : Vector α 256} (h : t.toList.Nodup) : Function.Injective (at8 t) := by
  intro i j hij
  have hget : t.toList[i.toNat]'(by simp [i.isLt]) = t.toList[j.toNat]'(by simp [j.isLt]) := by
    simpa [at8] using hij
  exact BitVec.eq_of_toNat_eq (h.getElem_inj_iff.1 hget)

theorem at8_tran_injective : Function.Injective (at8 Config.tran) :=
  at8_injective_of_nodup (by decide +kernel)

theorem tran_eq_generate : Config.tran.toList.map BitVec.toNat = (Source.generate 256).1.reverse := by
  decide +kernel

/-- Settles O23: an injective table of 256 bytes is a permutation, no step writes it, and only `UPD` reads it. -/
theorem tranIsAPermutationAndIsNeverWritten : Obligations.TranIsAPermutationAndIsNeverWritten := by
  refine ⟨rfl, fun v => (Finite.injective_iff_bijective.1 at8_tran_injective).existsUnique v, tran_eq_generate,
    fun s t h => (step_roms h).1, fun i s x hi => ?_⟩
  obtain ⟨t, -, h, -, hpopc, -⟩ := exec_next i s
  have hroms := exec_with_roms x s.popc h (fun b hb => absurd hb (hi b)) (fun _ => rfl)
  exact ⟨t, h, hroms.trans (by rw [hpopc])⟩

/-! ### `POPC` (R13) -/

theorem at8_tabulate {α : Type} (f : Nat → α) (i : Byte) : at8 (tabulate 256 f) i = f i.toNat := by
  simp [at8]

theorem at8_popc (i : Byte) : at8 Config.popc i = Config.popcEntry i := by
  simp [Config.popc, at8_tabulate]

/-- At most eight set bits fit in the four bits of an entry. -/
theorem popcEntry_toNat (i : Byte) : (Config.popcEntry i).toNat =
    (i.getLsbD 0).toNat + (i.getLsbD 1).toNat + (i.getLsbD 2).toNat + (i.getLsbD 3).toNat + (i.getLsbD 4).toNat +
      (i.getLsbD 5).toNat + (i.getLsbD 6).toNat + (i.getLsbD 7).toNat := by
  revert i; decide

/-- Settles O41: no step writes the table, only `CMP` reads it, and each entry counts bits. -/
theorem popcCountsSetBits : Obligations.PopcCountsSetBits := by
  refine ⟨rfl, fun s t h => (step_roms h).2, fun i s x hi => ?_, fun i => ?_⟩
  · obtain ⟨t, -, h, htran, -⟩ := exec_next i s
    have hroms := exec_with_roms s.tran x h (fun _ _ => rfl) (fun hc => absurd hc hi)
    exact ⟨t, h, hroms.trans (by rw [htran])⟩
  · rw [at8_popc, popcEntry_toNat]

end Sys2Proof.Machine

/-! The bytes of a digest in the payload, and commands issued twice (spec/20_memory.md R43, R48, 30_encoding.md R68). -/

namespace Sys2Proof.Machine

/-! ### Byte order (R43, R68) -/

/-- Settles O37, bit by bit: bit `k` of the field is payload bit `8 (31 - j) + k`, which is bit `k` of byte `j`. -/
theorem digestByteOrderInThePayload : Obligations.DigestByteOrderInThePayload := by
  intro d j
  have hj := j.isLt
  apply BitVec.eq_of_getLsbD_eq
  intro k hk
  have hbyte : 31 - (8 * (31 - j.toNat) + k) / 8 = j.toNat := by omega
  have hbit : (8 * (31 - j.toNat) + k) % 8 = k := by omega
  rw [BitVec.getLsbD_extractLsb', packDigest_getLsbD _ _ (by omega), hbyte, hbit, BitVec.ofNat_toNat,
    BitVec.setWidth_eq, decide_eq_true hk, Bool.true_and]

/-! ### Commands issued twice (R48) -/

/-- The error raised again leaves its response once more and nothing else: its `FAULT` bit is already set. -/
theorem raise_raise (e : Error) (s : State) :
    raise e (raise e s) = { raise e s with responses := ⟨e.status, 0⟩ :: (raise e s).responses } := by
  rw [raise, raise_fault, setFault_setFault]
  rfl

/-- `CMP` writes no operand, so a second one takes the same branch (43_comparator.md R127). -/
theorem exec_cmp_repeat {s t : State} (h : exec .cmp s = .next t) :
    ∃ r, t.responses = r :: s.responses ∧ exec .cmp t = .next { t with responses := r :: t.responses } := by
  obtain ⟨hd, rfl⟩ | ⟨ha, hb, rfl⟩ := exec_cmp_cases h
  · exact ⟨_, rfl, (exec_cmp_wrong (raise _ s) hd).trans (congrArg _ (raise_raise _ s))⟩
  · exact ⟨_, rfl, exec_cmp_digests _ ha hb⟩

/-- A command that neither consumes a symbol nor appends a byte to an operand answers the same when it is issued
again, and changes nothing more. -/
theorem exec_repeat {i : Instr} {s t : State} (h : exec i s = .next t) (hupd : ∀ b, i ≠ .upd b)
    (hlda : ∀ v, i ≠ .lda v) (hldb : ∀ v, i ≠ .ldb v) :
    ∃ r, t.responses = r :: s.responses ∧ exec i t = .next { t with responses := r :: t.responses } := by
  cases i with
  | upd b => exact absurd rfl (hupd b)
  | lda v => exact absurd rfl (hlda v)
  | ldb v => exact absurd rfl (hldb v)
  | cmp => exact exec_cmp_repeat h
  | _ => cases h; exact ⟨_, rfl, rfl⟩

/-- Settles O58: the nine commands are those that neither consume nor append. -/
theorem repeatedCommandsAreIdempotent : Obligations.RepeatedCommandsAreIdempotent := by
  intro i s hi
  obtain ⟨t, -, h, -⟩ := exec_next i s
  obtain ⟨r, hr, hagain⟩ := exec_repeat h (by rintro b rfl; simp at hi) (by rintro v rfl; simp at hi)
    (by rintro v rfl; simp at hi)
  exact ⟨t, _, r, h, hr, hagain, rfl⟩

end Sys2Proof.Machine

/-! The decoder as the encoder's inverse on the words of the opcode map, and the words outside it
(spec/30_encoding.md R60 to R65). -/

namespace Sys2Proof.Machine

/-! ### The fields of a word (R60) -/

/-- A word is determined by its three fields. -/
theorem ofWord_injective : Function.Injective RawCommand.ofWord := by
  intro v w h
  obtain ⟨hop, hz, himm⟩ := RawCommand.mk.inj h
  have fields (w : CommandWord) : w = w.extractLsb' 12 4 ++ (w.extractLsb' 8 4 ++ w.extractLsb' 0 8) := by
    rw [BitVec.extractLsb'_append_extractLsb'_eq_extractLsb' (by decide),
      BitVec.extractLsb'_append_extractLsb'_eq_extractLsb' (by decide)]
    exact (extract_self w).symm
  rw [fields v, fields w, hop, hz, himm]

theorem ofWord_and (v w : CommandWord) : RawCommand.ofWord (v &&& w) =
    { op := (RawCommand.ofWord v).op &&& (RawCommand.ofWord w).op
      z := (RawCommand.ofWord v).z &&& (RawCommand.ofWord w).z
      imm := (RawCommand.ofWord v).imm &&& (RawCommand.ofWord w).imm } := by
  simp only [RawCommand.ofWord, BitVec.extractLsb'_and]

/-! ### The opcode map (R63) -/

/-- The four opcodes that no command has (R64). -/
def unassignedOps : List (BitVec 4) :=
  [0x0#4, 0xD#4, 0xE#4, 0xF#4]

/-- The eight opcodes whose command takes no immediate (R63). -/
def plainOps : List (BitVec 4) :=
  [0x1#4, 0x3#4, 0x5#4, 0x6#4, 0x7#4, 0xA#4, 0xB#4, 0xC#4]

/-- The four opcodes whose command takes an immediate (R61, R63). -/
def immediateOps : List (BitVec 4) :=
  [0x2#4, 0x4#4, 0x8#4, 0x9#4]

theorem op_cases (op : BitVec 4) : op ∈ unassignedOps ∨ op ∈ plainOps ∨ op ∈ immediateOps := by
  revert op; decide

theorem decodeOp_unassigned : ∀ op ∈ unassignedOps, ∀ imm, decodeOp op.toNat imm = .error .unassignedOpcode := by
  simp only [unassignedOps, List.forall_mem_cons]
  exact ⟨fun _ => rfl, fun _ => rfl, fun _ => rfl, fun _ => rfl, List.forall_mem_nil _⟩

/-- The eight commands without an immediate, each encoded with the opcode it is read from. -/
theorem decodeOp_plain : ∀ op ∈ plainOps, ∃ i, encode i = assemble op 0#8 ∧
    ∀ imm, decodeOp op.toNat imm = withoutImmediate imm i := by
  simp only [plainOps, List.forall_mem_cons]
  exact ⟨⟨.aclr, rfl, fun _ => rfl⟩, ⟨.dgst, rfl, fun _ => rfl⟩, ⟨.stat, rfl, fun _ => rfl⟩,
    ⟨.clra, rfl, fun _ => rfl⟩, ⟨.clrb, rfl, fun _ => rfl⟩, ⟨.mva, rfl, fun _ => rfl⟩, ⟨.mvb, rfl, fun _ => rfl⟩,
    ⟨.cmp, rfl, fun _ => rfl⟩, List.forall_mem_nil _⟩

/-- The four commands with an immediate, each encoded with the opcode and the immediate it is read from. -/
theorem decodeOp_immediate : ∀ op ∈ immediateOps, ∀ imm, ∃ i, encode i = assemble op imm ∧
    decodeOp op.toNat imm = .ok i := by
  simp only [immediateOps, List.forall_mem_cons]
  exact ⟨fun imm => ⟨.upd imm, rfl, rfl⟩, fun imm => ⟨.rdh imm, rfl, rfl⟩, fun imm => ⟨.lda imm, rfl, rfl⟩,
    fun imm => ⟨.ldb imm, rfl, rfl⟩, List.forall_mem_nil _⟩

/-- The words that are no command, by class (R64). -/
def IllegalFields (r : RawCommand) : Prop :=
  r.op ∈ unassignedOps ∨ r.z ≠ 0#4 ∨ (r.op ∈ plainOps ∧ r.imm ≠ 0#8)

theorem opAssigned_iff (r : RawCommand) : r.opAssigned = true ↔ r.op ∉ unassignedOps := by
  have hop : ∀ op : BitVec 4, (decide (1 ≤ op.toNat) && decide (op.toNat ≤ 12)) = true ↔ op ∉ unassignedOps := by decide
  exact hop r.op

theorem takesImmediate_iff (r : RawCommand) : r.takesImmediate = true ↔ r.op ∉ unassignedOps ∧ r.op ∉ plainOps := by
  have hop : ∀ op : BitVec 4, (op == 0x2#4 || op == 0x4#4 || op == 0x8#4 || op == 0x9#4) = true ↔
      op ∉ unassignedOps ∧ op ∉ plainOps := by decide
  exact hop r.op

/-- The three checks of R62 leave out exactly the classes of R64. -/
theorem wf_iff_not_illegal (r : RawCommand) : r.wf = true ↔ ¬ IllegalFields r := by
  have hz : r.reservedClear = true ↔ r.z = 0#4 := beq_iff_eq
  have himm : r.immediateAllowed = true ↔ (r.op ∉ unassignedOps ∧ r.op ∉ plainOps) ∨ r.imm = 0#8 := by
    rw [RawCommand.immediateAllowed, Bool.or_eq_true, takesImmediate_iff, beq_iff_eq]
  rw [RawCommand.wf, Bool.and_eq_true, Bool.and_eq_true, opAssigned_iff, hz, himm, IllegalFields]
  tauto

/-! ### What the decoder answers (R62, R64) -/

theorem eq_assemble_of_reserved {w : CommandWord} (h : (RawCommand.ofWord w).z = 0#4) :
    assemble (RawCommand.ofWord w).op (RawCommand.ofWord w).imm = w := by
  apply ofWord_injective
  rw [ofWord_assemble, ← h]

/-- A word falls under a class of R64 and is refused, or it is the encoding of the command it decodes to. -/
theorem decode_cases (w : CommandWord) :
    (IllegalFields (RawCommand.ofWord w) ∧ ∃ e, decode w = .error e) ∨ ∃ i, decode w = .ok i ∧ encode i = w := by
  by_cases hz : (RawCommand.ofWord w).z = 0#4
  · have hw := eq_assemble_of_reserved hz
    have hdecode := (congrArg decode hw).symm.trans (decode_assemble _ _)
    obtain hop | hop | hop := op_cases (RawCommand.ofWord w).op
    · exact .inl ⟨.inl hop, _, hdecode.trans (decodeOp_unassigned _ hop _)⟩
    · obtain ⟨i, hi, hplain⟩ := decodeOp_plain _ hop
      rw [hplain] at hdecode
      by_cases himm : (RawCommand.ofWord w).imm = 0#8
      · rw [himm] at hw hdecode
        exact .inr ⟨i, hdecode, hi.trans hw⟩
      · exact .inl ⟨.inr (.inr ⟨hop, himm⟩), _, hdecode.trans (if_neg himm)⟩
    · obtain ⟨i, hi, hok⟩ := decodeOp_immediate _ hop (RawCommand.ofWord w).imm
      exact .inr ⟨i, hdecode.trans hok, hi.trans hw⟩
  · exact .inl ⟨.inr (.inl hz), _, if_neg hz⟩

theorem encode_of_decode {w : CommandWord} {i : Instr} (h : decode w = .ok i) : encode i = w := by
  obtain ⟨-, e, he⟩ | ⟨j, hj, hw⟩ := decode_cases w
  · cases he.symm.trans h
  · cases hj.symm.trans h
    exact hw

/-- Settles O1: the encoder's words are read back, and the decoder accepts no other word. -/
theorem decodeAndEncodeAgree : Obligations.DecodeAndEncodeAgree :=
  ⟨decode_encode, fun _ _ => encode_of_decode⟩

/-! ### The three checks and the opcode table (R62) -/

/-- The word of a command meets the three checks and matches the row of its mnemonic alone. -/
theorem encoding_statement (i : Instr) : Laws.Encoding.Statement i := by
  cases i with
  | aclr => exact Laws.Encoding.aclr
  | upd imm => exact Laws.Encoding.upd imm
  | dgst => exact Laws.Encoding.dgst
  | rdh imm => exact Laws.Encoding.rdh imm
  | stat => exact Laws.Encoding.stat
  | clra => exact Laws.Encoding.clra
  | clrb => exact Laws.Encoding.clrb
  | lda imm => exact Laws.Encoding.lda imm
  | ldb imm => exact Laws.Encoding.ldb imm
  | mva => exact Laws.Encoding.mva
  | mvb => exact Laws.Encoding.mvb
  | cmp => exact Laws.Encoding.cmp

theorem decodes_iff_wf (w : CommandWord) : (∃ i, decode w = .ok i) ↔ (RawCommand.ofWord w).wf = true := by
  constructor
  · rintro ⟨i, hi⟩
    rw [← encode_of_decode hi]
    exact (encoding_statement i).1
  · intro hwf
    obtain ⟨hillegal, -⟩ | ⟨i, hi, -⟩ := decode_cases w
    · exact absurd hillegal ((wf_iff_not_illegal _).1 hwf)
    · exact ⟨i, hi⟩

theorem decode_error_iff_illegal (w : CommandWord) :
    (∃ e, decode w = .error e) ↔ IllegalFields (RawCommand.ofWord w) := by
  constructor
  · rintro ⟨e, he⟩
    obtain ⟨hillegal, -⟩ | ⟨i, hi, -⟩ := decode_cases w
    · exact hillegal
    · cases he.symm.trans hi
  · intro hillegal
    obtain ⟨-, he⟩ | ⟨i, hi, -⟩ := decode_cases w
    · exact he
    · exact absurd hillegal ((wf_iff_not_illegal _).1 ((decodes_iff_wf w).1 ⟨i, hi⟩))

/-- Each row of the table fixes the opcode and the reserved bits of its words, its own word is a command, and it leaves
the immediate free only where the command takes one. -/
theorem opcodeRows_shape : ∀ r ∈ opcodeRows,
    (RawCommand.ofWord r.mask).op = 0xF#4 ∧ (RawCommand.ofWord r.mask).z = 0xF#4 ∧
    (RawCommand.ofWord r.pattern).wf = true ∧
    ((RawCommand.ofWord r.mask).imm = 0xFF#8 ∨ (RawCommand.ofWord r.pattern).takesImmediate = true) := by
  decide

theorem wf_of_matches {r : OpcodeRow} (hr : r ∈ opcodeRows) {w : CommandWord} (h : r.matches w = true) :
    (RawCommand.ofWord w).wf = true := by
  obtain ⟨hop, hz, hwf, himm⟩ := opcodeRows_shape r hr
  have hpattern : RawCommand.ofWord r.pattern = _ :=
    (congrArg RawCommand.ofWord (beq_iff_eq.1 h).symm).trans (ofWord_and w r.mask)
  have hones (x : BitVec 4) : x &&& 0xF#4 = x := BitVec.and_allOnes
  rw [hop, hz, hones, hones] at hpattern
  rw [hpattern] at hwf himm
  obtain hfixed | htakes := himm
  · have hones8 (x : Byte) : x &&& 0xFF#8 = x := BitVec.and_allOnes
    rwa [hfixed, hones8] at hwf
  · have hallowed : (RawCommand.ofWord w).immediateAllowed = true := Bool.or_eq_true_iff.2 (.inl htakes)
    exact Bool.and_eq_true_iff.2 ⟨(Bool.and_eq_true_iff.1 hwf).1, hallowed⟩

/-- Each command has its row. -/
theorem exists_row_of_instr (i : Instr) : ∃ r ∈ opcodeRows, r.mnemonic = i.mnemonic := by
  cases i <;> simp [opcodeRows, Instr.mnemonic]

/-- No two rows carry the same mnemonic. -/
theorem row_eq_of_mnemonic : ∀ r ∈ opcodeRows, ∀ r' ∈ opcodeRows, r.mnemonic = r'.mnemonic → r = r' := by
  decide

theorem matches_iff_mnemonic {w : CommandWord} {i : Instr} (hi : decode w = .ok i) {r : OpcodeRow} (hr : r ∈ opcodeRows) :
    r.matches w = true ↔ r.mnemonic = i.mnemonic := by
  rw [← encode_of_decode hi]
  exact (encoding_statement i).2 r hr

theorem decodes_iff_matches (w : CommandWord) :
    (∃ i, decode w = .ok i) ↔ ∃ r ∈ opcodeRows, r.matches w = true := by
  constructor
  · rintro ⟨i, hi⟩
    obtain ⟨r, hr, hname⟩ := exists_row_of_instr i
    exact ⟨r, hr, (matches_iff_mnemonic hi hr).2 hname⟩
  · rintro ⟨r, hr, hmatch⟩
    exact (decodes_iff_wf w).2 (wf_of_matches hr hmatch)

/-- Settles O2: a matching row makes the word a command, whose mnemonic names the row. -/
theorem decodingIsStrictAndTotal : Obligations.DecodingIsStrictAndTotal := by
  intro w
  refine ⟨decodes_iff_wf w, decodes_iff_matches w, fun r hr r' hr' hmatch hmatch' => ?_,
    fun i hi r hr => (matches_iff_mnemonic hi hr).1⟩
  obtain ⟨i, hi⟩ := (decodes_iff_matches w).2 ⟨r, hr, hmatch⟩
  exact row_eq_of_mnemonic r hr r' hr'
    (((matches_iff_mnemonic hi hr).1 hmatch).trans ((matches_iff_mnemonic hi hr').1 hmatch').symm)

/-! ### Illegal words and the words of the map (R63, R64) -/

/-- The classes of R64, written on the bits of a word. -/
theorem illegalFields_ofWord (w : CommandWord) : IllegalFields (RawCommand.ofWord w) ↔
    w.extractLsb' 12 4 = 0x0#4 ∨ w.extractLsb' 12 4 = 0xD#4 ∨ w.extractLsb' 12 4 = 0xE#4 ∨
    w.extractLsb' 12 4 = 0xF#4 ∨ w.extractLsb' 8 4 ≠ 0#4 ∨ (w.extractLsb' 12 4 ∈ plainOps ∧ w.extractLsb' 0 8 ≠ 0#8) := by
  simp only [IllegalFields, RawCommand.ofWord, unassignedOps, List.mem_cons, List.not_mem_nil, or_false, or_assoc]

/-- Settles O4: a word that does not decode is discarded by `raise`, and only the classes of R64 do not decode. -/
theorem illegalWordsRaiseIllegalCommand : Obligations.IllegalWordsRaiseIllegalCommand := by
  intro s w rest hs
  have hclasses := illegalFields_ofWord w
  rw [plainOps] at hclasses
  constructor
  · intro hclass
    have hillegal : IllegalFields (RawCommand.ofWord w) := by
      simp only [← or_assoc] at hclass hclasses
      obtain (hfields | rfl) | rfl := hclass
      · exact hclasses.2 hfields
      · exact .inl (by decide)
      · exact .inl (by decide)
    obtain ⟨e, he⟩ := (decode_error_iff_illegal w).2 hillegal
    rw [step_command s w rest hs, execWord_illegal w e _ he]
    rfl
  · obtain ⟨hillegal, -⟩ | ⟨i, hi, -⟩ := decode_cases w
    · exact .inr (hclasses.1 hillegal)
    · exact .inl ⟨i, hi⟩

/-- A word of the map as a sum: the opcode in the top digit, plus the immediate (R63, column "Word"). -/
theorem add_eq_assemble (op : BitVec 4) (imm : Byte) : op.setWidth 16 <<< 12 + imm.setWidth 16 = assemble op imm := by
  have hop := op.isLt
  have himm := imm.isLt
  apply BitVec.eq_of_toNat_eq
  have happend : (assemble op imm).toNat = op.toNat <<< 12 + imm.toNat := by
    rw [assemble, BitVec.toNat_append, BitVec.toNat_append, BitVec.toNat_ofNat, Nat.zero_mod, Nat.zero_shiftLeft,
      Nat.zero_or, Nat.shiftLeft_add_eq_or_of_lt (by omega)]
  rw [happend]
  simp only [BitVec.toNat_add, BitVec.toNat_shiftLeft, BitVec.toNat_setWidth, Nat.shiftLeft_eq]
  omega

theorem decode_add (op : BitVec 4) (imm : Byte) :
    decode (op.setWidth 16 <<< 12 + imm.setWidth 16) = decodeOp op.toNat imm := by
  rw [add_eq_assemble, decode_assemble]

/-- Settles O3: a row's word is the encoding of its command or, with an immediate, the sum of its fields. -/
theorem tableWordsDecode : Obligations.TableWordsDecode :=
  ⟨decode_encode .aclr, decode_add 0x2#4, decode_encode .dgst, decode_add 0x4#4, decode_encode .stat,
    decode_encode .clra, decode_encode .clrb, decode_add 0x8#4, decode_add 0x9#4, decode_encode .mva,
    decode_encode .mvb, decode_encode .cmp⟩

end Sys2Proof.Machine

/-! The written forms: hexadecimal digits, a digest as text, a command as a line (spec/30_encoding.md R69, R70, R72). -/

namespace Sys2Proof.Machine

/-! ### Hexadecimal digits (R72) -/

theorem hexValue_hexDigit {n : Nat} (h : n < 16) : hexValue (hexDigit n) = some n := by
  revert n; decide

theorem hexValue_high (b : Byte) : hexValue (hexDigit (b.toNat / 16)) = some (b.toNat / 16) :=
  hexValue_hexDigit (Nat.div_lt_of_lt_mul b.isLt)

theorem hexValue_low (b : Byte) : hexValue (hexDigit (b.toNat % 16)) = some (b.toNat % 16) :=
  hexValue_hexDigit (Nat.mod_lt _ (by decide))

@[simp] theorem hexByte_length (b : Byte) : (hexByte b).length = 2 := rfl

/-- The digits of a byte at the head of a text are read as that byte. -/
theorem hexBytes_hexByte_append (b : Byte) (cs : List Char) :
    hexBytes (hexByte b ++ cs) = (b :: (hexBytes cs).1, (hexBytes cs).2) := by
  simp only [hexByte, List.cons_append, List.nil_append, hexBytes, hexValue_high, hexValue_low, Nat.div_add_mod,
    BitVec.ofNat_toNat, BitVec.setWidth_eq]

theorem hexBytes_flatten (bs : List Byte) : hexBytes (bs.map hexByte).flatten = (bs, []) := by
  induction bs with
  | nil => rfl
  | cons b bs ih => rw [List.map_cons, List.flatten_cons, hexBytes_hexByte_append, ih]

/-- Settles O7, by induction on the digest's bytes. -/
theorem hexRenderingSpellsTheDigest : Obligations.HexRenderingSpellsTheDigest := by
  intro d
  refine ⟨?_, hexBytes_flatten d.toList⟩
  simp [renderDigest, List.length_flatten, Function.comp_def]

/-! ### One line (R69) -/

/-- An immediate written as `0x` and two digits, with nothing after it. -/
theorem immediate_hexByte (b : Byte) : immediate ('0' :: 'x' :: hexByte b) = some (b, []) := by
  have hdigits : digits hexValue 16 (b.toNat / 16) [hexDigit (b.toNat % 16)] = (b.toNat, []) := by
    simp only [digits, hexValue_low, Nat.div_add_mod]
  simp only [hexByte, immediate, hexValue_high, hdigits, asByte, b.isLt, if_true, BitVec.ofNat_toNat,
    BitVec.setWidth_eq]

theorem withImm_hexByte (f : Byte → Instr) (b : Byte) : withImm f (' ' :: '0' :: 'x' :: hexByte b) = some [f b] := by
  have hskip : skipBlanks (' ' :: '0' :: 'x' :: hexByte b) = '0' :: 'x' :: hexByte b := rfl
  rw [withImm, hskip, immediate_hexByte]
  rfl

theorem assembleLine_lineOf (i : Instr) : assembleLine (lineOf i) = some [i] := by
  cases i with
  | upd b => exact withImm_hexByte .upd b
  | rdh b => exact withImm_hexByte .rdh b
  | lda b => exact withImm_hexByte .lda b
  | ldb b => exact withImm_hexByte .ldb b
  | _ => rfl

/-- Settles O5: a line names its command, and the digits of its immediate are read back. -/
theorem assemblerReadsBackEveryCommand : Obligations.AssemblerReadsBackEveryCommand :=
  ⟨assembleLine_lineOf, by decide, by decide, by decide⟩

/-! ### Pseudo-instructions (R70) -/

theorem expand_update_append (bs bs' : List Byte) :
    expand (.update (bs ++ bs')) = expand (.update bs) ++ expand (.update bs') :=
  List.map_append

/-- Settles O6: the expansions by definition, and `UPDATE` of two lists after each other. -/
theorem pseudoInstructionsExpand : Obligations.PseudoInstructionsExpand :=
  ⟨fun _ => rfl, fun _ => rfl, fun _ => rfl, rfl, expand_update_append⟩

end Sys2Proof.Machine

/-! The response to a command word, legal or not (spec/30_encoding.md R66 to R68). -/

namespace Sys2Proof.Machine

/-- A word, legal or not, gets one response, and the payload of an error is zero (R68, 60_exceptions.md R154). -/
theorem execWord_responds (w : CommandWord) (s : State) :
    ∃ t r, execWord w s = .next t ∧ t.script = s.script ∧ t.responses = r :: s.responses ∧
      (r.status ≠ .ok → r.payload = 0) := by
  cases hw : decode w with
  | error e => exact ⟨_, _, execWord_illegal w e s hw, rfl, rfl, fun _ => rfl⟩
  | ok i =>
    rw [execWord_decoded w i s hw]
    obtain ⟨e, h, -⟩ | ⟨v, a, d, x, y, h⟩ := exec_cases i s
    · exact ⟨_, _, h, rfl, rfl, fun _ => rfl⟩
    · exact ⟨_, _, h, rfl, rfl, fun hstatus => absurd rfl hstatus⟩

theorem step_next (s : State) : ∃ t, step s = .next t := by
  match hs : s.script with
  | [] => exact ⟨s, step_no_event s hs⟩
  | .reset :: rest => exact ⟨_, step_reset s rest hs⟩
  | .command w :: rest =>
    obtain ⟨t, h, -⟩ := execWord_next w (issued rest s)
    exact ⟨t, (step_command s w rest hs).trans h⟩

/-- Settles O10: one response per word, and its two fields in the 260 bits. -/
theorem everyCommandGetsOneResponse : Obligations.EveryCommandGetsOneResponse := by
  refine ⟨step_next, fun s w rest hs => ?_, fun r => ⟨extract_append_high _ _, ?_⟩⟩
  · rw [step_command s w rest hs]
    exact execWord_responds w (issued rest s)
  · exact (extract_append_low r.status.code r.payload 0 256 (by decide)).trans (extract_self r.payload)

end Sys2Proof.Machine

/-! The mixer (spec/40_mixer.md R80, R82, R84). -/

namespace Sys2Proof.Machine

/-! ### The formula in ordinary integers (R80, R82) -/

theorem source_sub_of_lt (t : TranTable) {i : Nat} (hi : i < 256) :
    Source.sub t i = (at8 t (BitVec.ofNat 8 i)).toNat := by
  have hi' : (BitVec.ofNat 8 i).toNat = i := Nat.mod_eq_of_lt hi
  rw [← source_sub_toNat, hi']

theorem source_mix_eq_at8 (t : TranTable) (a b c : Byte) (n : Fin 8) :
    Source.mix t a.toNat b.toNat c.toNat n.val =
      (((at8 t (BitVec.ofNat 8 ((a.toNat + n.val) % 256))).toNat ^^^ ((at8 t b).toNat * (2 * n.val + 1))) +
        (at8 t (c ^^^ at8 t (BitVec.ofNat 8 n.val))).toNat) % 256 := by
  have hx := source_sub_of_lt t (Nat.mod_lt (a.toNat + n.val) (by decide : 256 > 0))
  have hk := source_sub_of_lt t (Nat.lt_trans n.isLt (by decide : 8 < 256))
  rw [Source.mix, hx, hk, source_sub_toNat, ← BitVec.toNat_xor, source_sub_toNat]

/-- XOR with a byte and addition both keep the low 8 bits apart from the rest, so the product may be wrapped first. -/
theorem xor_add_mod_eq_xor_mod_add_mod (x : Byte) (p z : Nat) :
    ((x.toNat ^^^ p) + z) % 256 = ((x.toNat ^^^ (p % 256)) + z) % 256 := by
  have hxor : (x.toNat ^^^ p) % 256 = x.toNat ^^^ (p % 256) := by
    rw [show 256 = 2 ^ 8 from rfl, Nat.xor_mod_two_pow, Nat.mod_eq_of_lt x.isLt]
  rw [← Nat.mod_add_mod, hxor]

/-- Settles O21: the 8-bit mixer is the source's formula, and the product may be wrapped before the XOR. -/
theorem mixIsTheSourcesFormula : Obligations.MixIsTheSourcesFormula := by
  intro t a b c n
  have hmix := (mix_toNat t a b c n).trans (source_mix_eq_at8 t a b c n)
  exact ⟨hmix, hmix.trans (xor_add_mod_eq_xor_mod_add_mod _ _ _)⟩

/-! ### The constants of the mixer indices (R84) -/

theorem mixMultiplier_eq : ∀ n : Fin 8, (2 * BitVec.ofNat 8 n.val + 1 : Byte) =
    [1#8, 3#8, 5#8, 7#8, 9#8, 11#8, 13#8, 15#8].getD n.val 0#8 := by
  decide

theorem at8_tran_mixIndex : ∀ n : Fin 8, at8 Config.tran (BitVec.ofNat 8 n.val) =
    [0x02#8, 0xD6#8, 0x9E#8, 0x6F#8, 0xF9#8, 0x1D#8, 0x04#8, 0xAB#8].getD n.val 0#8 := by
  decide

/-- Settles O24: the two constants of each index, put for the multiplier and the table byte in `mix`. -/
theorem mixerConstants : Obligations.MixerConstants := by
  refine ⟨by decide, by decide, fun a b c n => ?_⟩
  rw [mix, mixMultiplier_eq, at8_tran_mixIndex]

end Sys2Proof.Machine

/-! The commands `ACLR`, `UPD` and `RDH` one by one: what each answers and writes, which slots a symbol selects and what they gain,
and the slots the mixer can reach (spec/41_accumulator.md R90 to R101). -/

namespace Sys2Proof.Machine

/-! ### `ACLR` and `RDH` (R90, R99) -/

/-- Settles O25: the accumulator `ACLR` writes is the empty one, register by register, which is also that of reset. -/
theorem aclrEmptiesTheAccumulator : Obligations.AclrEmptiesTheAccumulator := by
  refine ⟨decode_encode .aclr, exec_aclr, exec_aclr, fun s hs => ?_⟩
  have hempty : s.accum = Accumulator.empty Config.cntW := hs
  rw [exec_aclr, ← hempty]
  rfl

/-- Settles O31: the word is that of the opcode table, and the response is the only thing written. -/
theorem rdhReadsOneSlot : Obligations.RdhReadsOneSlot :=
  fun i s => ⟨decode_add 0x4#4 i, exec_rdh i s⟩

/-! ### The top of the counter (R92) -/

theorem atTop_of_count_eq {n : Nat} {a : Accumulator n} (h : a.count.toNat = 2 ^ n - 1) : a.atTop = true :=
  beq_iff_eq.2 h

theorem atTop_of_count_ne {n : Nat} {a : Accumulator n} (h : a.count.toNat ≠ 2 ^ n - 1) : a.atTop = false :=
  beq_eq_false_iff_ne.2 h

/-- Settles O27: `FAULT.COVF` and the error response are all that `raise` writes. -/
theorem updAtTheTopRaisesCountOverflow : Obligations.UpdAtTheTopRaisesCountOverflow :=
  fun b s h => exec_upd_top b s (atTop_of_count_eq h)

/-! ### One consumed symbol (R91, R93, R95) -/

/-- The presence conditions of R91 as propositions, the mixer calls grouped as the window fills. -/
theorem selectedSlots_eq_append (t : TranTable) (b : Byte) (w : Vector Byte 4) (p : BitVec 4) :
    selectedSlots t b w p =
      if present p 0 = true ∧ present p 1 = true then
        [mix t b w[0] w[1] 0] ++
          (if present p 2 = true then
            [mix t b w[0] w[2] 1, mix t b w[1] w[2] 2] ++
              (if present p 3 = true then
                [mix t b w[0] w[3] 3, mix t b w[1] w[3] 4, mix t b w[2] w[3] 5,
                 mix t w[3] w[0] b 6, mix t w[3] w[2] b 7]
              else [])
          else [])
      else [] := by
  simp only [selectedSlots, Bool.and_eq_true, List.cons_append, List.nil_append]

/-- Settles O26: below the top `UPD` leaves the accumulator that `consume` gives, field by field. -/
theorem updConsumesOneSymbol : Obligations.UpdConsumesOneSymbol := by
  refine ⟨decode_add 0x2#4, fun b s h => exec_upd_top b s (atTop_of_count_eq h), fun b s h => ?_⟩
  have hslots := selectedSlots_eq_append s.tran b s.accum.w s.accum.p
  exact ⟨_, exec_upd_below b s (atTop_of_count_ne h), rfl, congrArg (bumpAll s.accum.acc) hslots, rfl, rfl,
    present_shift_zero _, present_shift_succ _ 0 (by decide), present_shift_succ _ 1 (by decide),
    present_shift_succ _ 2 (by decide)⟩

/-- Settles O28: the invariant gives each count its presence pattern, and each pattern selects its row of slots. -/
theorem updSlotsByOldCount : Obligations.UpdSlotsByOldCount := by
  intro b s ⟨hpresent, _⟩ hcount
  obtain ⟨p0, p1, p2, p3, p4⟩ := presence_pattern _ _ hpresent
  refine ⟨_, exec_upd_below b s (atTop_of_count_ne hcount), fun hc => ⟨p0 hc, ?_⟩, fun hc => ⟨p1 hc, ?_⟩,
    fun hc => ⟨p2 hc, ?_⟩, fun hc => ⟨p3 hc, ?_⟩, fun hc => ⟨p4 hc, ?_⟩⟩
  all_goals rw [respond_accum, consume_acc]
  · rw [p0 hc, selectedSlots_absent _ _ _ _ rfl, bumpAll_nil]
  · rw [p1 hc, selectedSlots_absent _ _ _ _ rfl, bumpAll_nil]
  · rw [p2 hc, selectedSlots_two]
  · rw [p3 hc, selectedSlots_three]
  · rw [p4 hc, selectedSlots_four]

/-! ### What a slot gains (R94, R97) -/

/-- While the sum of the slots stays below the largest slot value, no increment wraps. -/
theorem bumpAll_at8_toNat {m : Nat} (us : List Byte) (acc : Vector (BitVec m) 256) (i : Byte)
    (h : (acc.toList.map BitVec.toNat).sum + us.length < 2 ^ m) :
    (at8 (bumpAll acc us) i).toNat = (at8 acc i).toNat + us.count i := by
  have hslot := slot_le_sum acc i
  have hcount : us.count i ≤ us.length := List.count_le_length
  have hsum : (at8 acc i).toNat + us.count i < 2 ^ m := by omega
  rw [bumpAll_at8, BitVec.toNat_add, BitVec.toNat_ofNat, Nat.add_mod_mod, Nat.mod_eq_of_lt hsum]

theorem consume_at8_toNat {n : Nat} {a : Accumulator n} (h : a.Inv) (htop : a.atTop = false) (t : TranTable)
    (b i : Byte) :
    (at8 (a.consume t b).acc i).toNat = (at8 a.acc i).toNat + (selectedSlots t b a.w a.p).count i :=
  bumpAll_at8_toNat _ _ i (slotSum_add_selected_lt h htop t b)

/-- Each slot gains the number of its selections, whatever their order. -/
theorem bumpAll_perm {m : Nat} (acc : Vector (BitVec m) 256) {us us' : List Byte} (h : us.Perm us') :
    bumpAll acc us = bumpAll acc us' :=
  at8_ext fun i => by rw [bumpAll_at8, bumpAll_at8, h.count_eq]

/-- Settles O29: the invariant leaves room in every slot, so the gains are those of unbounded naturals. -/
theorem slotGainsOncePerSelection : Obligations.SlotGainsOncePerSelection := by
  intro b s hinv hcount
  have htop := atTop_of_count_ne hcount
  exact ⟨_, _, exec_upd_below b s htop, rfl, selectedSlots_length_le _ _ _ _,
    consume_at8_toNat hinv htop s.tran b, fun _ hperm => bumpAll_perm _ hperm.symm⟩

/-- Settles O18: a word that is not `ACLR` leaves the accumulator, or is a `UPD`, which only adds. -/
theorem slotsNeverDecrease : Obligations.SlotsNeverDecrease := by
  intro s t w rest ⟨hinv, _⟩ hs haclr hstep i
  rw [step_command s w rest hs] at hstep
  by_cases hupd : ∃ b, decode w = .ok (.upd b)
  · obtain ⟨b, hb⟩ := hupd
    rw [execWord_decoded w _ _ hb] at hstep
    obtain ⟨-, rfl⟩ | ⟨htop, rfl⟩ := exec_upd_cases hstep
    · exact le_rfl
    · exact Nat.le.intro (consume_at8_toNat hinv htop s.tran b i).symm
  · rw [execWord_accum_eq hstep haclr (not_exists.1 hupd), issued_accum]

/-- Settles O16: at every width the empty accumulator has the invariant, and `consume` keeps it. -/
theorem invariantForEveryCounterWidth : Obligations.InvariantForEveryCounterWidth :=
  fun n => ⟨empty_inv n, fun t b a hinv htop => ⟨consume_inv hinv htop t b, consume_count_toNat t b a htop⟩⟩

/-! ### Presence is the flag, never the byte (R98) -/

theorem selectedSlots_length (t : TranTable) (b : Byte) (w : Vector Byte 4) (p : BitVec 4) :
    (selectedSlots t b w p).length =
      if present p 0 && present p 1 then if present p 2 then if present p 3 then 8 else 3 else 1 else 0 := by
  unfold selectedSlots
  split_ifs <;> rfl

/-- Three zero symbols from empty: the first two find too few before them, the third makes one mixer call. -/
theorem empty_consumeAll_zeros_acc (n : Nat) (t : TranTable) :
    ((Accumulator.empty n).consumeAll t [0x00#8, 0x00#8, 0x00#8]).acc =
      bump (Accumulator.empty n).acc (mix t 0x00#8 0x00#8 0x00#8 0) := by
  have hnone : (present 0#4 0 && present 0#4 1) = false := by decide
  have hone : (present (shiftPresence 0#4) 0 && present (shiftPresence 0#4) 1) = false := by decide
  have htwo : shiftPresence (shiftPresence 0#4) = 0b0011#4 := by decide
  have hfirst : ((Accumulator.empty n).consume t 0x00#8).acc = (Accumulator.empty n).acc := by
    rw [consume_acc, empty_p, selectedSlots_absent _ _ _ _ hnone, bumpAll_nil]
  have hsecond : (((Accumulator.empty n).consume t 0x00#8).consume t 0x00#8).acc = (Accumulator.empty n).acc := by
    rw [consume_acc, consume_p, empty_p, selectedSlots_absent _ _ _ _ hone, bumpAll_nil, hfirst]
  rw [consumeAll_cons, consumeAll_cons, consumeAll_cons, consumeAll_nil, consume_acc, hsecond, consume_p, consume_p,
    empty_p, htwo, selectedSlots_two]
  rfl

/-- Settles O30: the length of the selection names no symbol, and the zero stream selects one slot once. -/
theorem zeroIsASymbolLikeAnyOther : Obligations.ZeroIsASymbolLikeAnyOther := by
  refine ⟨fun t t' b b' w w' p => by rw [selectedSlots_length, selectedSlots_length],
    _, stepN_updates [0x00#8, 0x00#8, 0x00#8] State.reset (by decide), fun i => ?_⟩
  have hacc := empty_consumeAll_zeros_acc Config.cntW Config.tran
  refine (congrArg (at8 · i) hacc).trans ?_
  rw [bump_at8, empty_acc_at8, zero_add]

/-! ### The slots the mixer can reach (R101) -/

/-- Only the last table read takes `c`, at an index XORed with a constant; XOR and addition cancel. -/
theorem mix_injective {t : TranTable} (ht : Function.Injective (at8 t)) (a b : Byte) (n : Fin 8) :
    Function.Injective fun c => mix t a b c n := by
  intro c c' h
  have hread : at8 t (c ^^^ at8 t (BitVec.ofNat 8 n.val)) = at8 t (c' ^^^ at8 t (BitVec.ofNat 8 n.val)) :=
    BitVec.add_right_inj _ |>.1 h
  exact BitVec.xor_left_inj _ |>.1 (ht hread)

/-- Settles O22: an injective map of the 256 byte values to themselves is a bijection. -/
theorem everySlotCanBeSelected : Obligations.EverySlotCanBeSelected :=
  ⟨fun _ a b n ht => Finite.injective_iff_bijective.1 (mix_injective ht a b n), at8_tran_injective⟩

end Sys2Proof.Machine

/-! Streams of `UPD`s: the window they leave, and the words between them that do not matter (spec/41_accumulator.md R95 to R97). -/

namespace Sys2Proof.Machine

/-! ### The window after a stream (R95, R97 (a)) -/

/-- Settles O32: the stream's accumulator has seen its symbols, the last one first. -/
theorem windowHoldsTheLastSymbols : Obligations.WindowHoldsTheLastSymbols := by
  intro s bs h
  have hseen := consumeAll_hasSeen (empty_hasSeen Config.cntW) s.tran bs
  rw [List.append_nil] at hseen
  refine ⟨_, stepN_aclr_updates bs s h, empty_consumeAll_count_toNat _ s.tran bs h, fun k => ?_, hseen.window, rfl⟩
  simpa using hseen.present k

/-! ### Chunking (R96) -/

theorem isUpdate_iff (w : CommandWord) : isUpdate w = true ↔ ∃ b, decode w = .ok (.upd b) := by
  unfold isUpdate
  split
  next b h => exact iff_of_true rfl ⟨b, h⟩
  next h => exact iff_of_false (by decide) fun ⟨b, hb⟩ => h b hb

/-- What `UPD` leaves in the accumulator is determined by the accumulator and the table alone. -/
theorem exec_upd_accum {b : Byte} {s t : State} (h : exec (.upd b) s = .next t) :
    t.accum = if s.accum.atTop then s.accum else s.accum.consume s.tran b := by
  obtain ⟨htop, rfl⟩ | ⟨htop, rfl⟩ := exec_upd_cases h
  · simp only [raise_accum, htop, if_true]
  · simp only [respond_accum, htop, Bool.false_eq_true, if_false]

/-- Two runs from the same accumulator and table, one of all the words and one of the `UPD`s among them, keep step. -/
theorem stepN_filter_isUpdate (ws : List CommandWord) {s s' : State} (haccum : s.accum = s'.accum)
    (htran : s.tran = s'.tran) (hws : ∀ w ∈ ws, decode w ≠ .ok .aclr) :
    ∃ t t', stepN ws.length (issue ws s) = .next t ∧
      stepN (ws.filter isUpdate).length (issue (ws.filter isUpdate) s') = .next t' ∧ t.accum = t'.accum := by
  induction ws generalizing s s' with
  | nil => exact ⟨s, s', rfl, rfl, haccum⟩
  | cons w ws ih =>
    obtain ⟨haclr, hrest⟩ := List.forall_mem_cons.1 hws
    obtain ⟨t, ht, -, httran, -⟩ := execWord_next w s
    rw [List.length_cons, stepN_issue_cons _ _ _ _ _ ht]
    by_cases hupd : isUpdate w = true
    · obtain ⟨t', ht', -, httran', -⟩ := execWord_next w s'
      rw [List.filter_cons_of_pos hupd, List.length_cons, stepN_issue_cons _ _ _ _ _ ht']
      obtain ⟨b, hb⟩ := (isUpdate_iff w).1 hupd
      rw [execWord_decoded w _ _ hb] at ht ht'
      have hboth : t.accum = t'.accum := by rw [exec_upd_accum ht, exec_upd_accum ht', haccum, htran]
      exact ih hboth (by rw [httran, httran', htran]) hrest
    · have hother : ∀ b, decode w ≠ .ok (.upd b) := fun b hb => hupd ((isUpdate_iff w).2 ⟨b, hb⟩)
      rw [List.filter_cons_of_neg hupd]
      exact ih ((execWord_accum_eq ht haclr hother).trans haccum) (httran.trans htran) hrest

/-- Settles O33: the two runs end with the same accumulator, and `DGST` reads nothing else. -/
theorem chunkingInvariance : Obligations.ChunkingInvariance := by
  intro s s' ws haccum htran hws
  obtain ⟨t, t', ht, ht', hend⟩ := stepN_filter_isUpdate ws haccum htran hws
  refine ⟨t, t', ht, ht', hend, _, _, exec_dgst t, exec_dgst t', ?_, ?_⟩
  · simp only [respond_dg, hend]
  · simp only [respond_responses, List.head?_cons, hend]

end Sys2Proof.Machine

/-! `DGST`: the scalar `total`, the comparison with the mean, the bits of the digest, and its corner cases by `COUNT`
(spec/42_digest_builder.md R110 to R117). -/

namespace Sys2Proof.Machine

/-! ### The threshold (R111, R113) -/

/-- Settles O34: the rows below 5 by evaluation, the others and the examples from 5 on by the closed form. -/
theorem totalIsThePiecewiseRule : Obligations.TotalIsThePiecewiseRule := by
  have htop : total (2 ^ 32 - 1) = 34359738332 := total_of_five_le _ (by decide)
  refine ⟨rfl, rfl, rfl, rfl, rfl, fun c hc => ⟨total_of_five_le c hc, by omega⟩, rfl, rfl, rfl, rfl, rfl, htop, ?_⟩
  rw [htop]
  decide

theorem aboveMean_iff (t slot : Nat) : aboveMean t slot = true ↔ t < 256 * slot :=
  decide_eq_true_iff

theorem aboveMean_iff_div_lt_nat (t slot : Nat) : aboveMean t slot = true ↔ t / 256 < slot := by
  rw [aboveMean_iff, Nat.div_lt_iff_lt_mul (by decide), Nat.mul_comm]

/-- Settles O35: the engine's comparison as it stands, over the rationals, and floored. -/
theorem thresholdComparisonIsExact : Obligations.ThresholdComparisonIsExact :=
  fun t slot => ⟨aboveMean_iff t slot, aboveMean_iff_div_lt t slot, aboveMean_iff_div_lt_nat t slot⟩

/-! ### The bits of the digest (R110, R114, R115) -/

theorem packDigest_buildDigest_slot_bit {n : Nat} (a : Accumulator n) (i : Byte) :
    (packDigest (buildDigest a)).getLsbD i.toNat = digestBit a i := by
  rw [packDigest_getLsbD _ _ i.isLt, buildDigest_slot_bit]

/-- Settles O36: `DGST` writes the digest that `buildDigest` makes, whose bits stand where R114 and R115 put them. -/
theorem dgstBuildsAndPacksTheDigest : Obligations.DgstBuildsAndPacksTheDigest :=
  ⟨decode_encode .dgst, fun s => ⟨_, exec_dgst s, rfl, fun i =>
    ⟨buildDigest_slot_bit s.accum i, packDigest_buildDigest_slot_bit s.accum i⟩⟩⟩

/-! ### Repeated digests (R116) -/

/-- A run over words that are neither `ACLR` nor `UPD`, legal or not, leaves the accumulator. -/
theorem stepN_accum_eq (ws : List CommandWord) (s : State)
    (hws : ∀ w ∈ ws, decode w ≠ .ok .aclr ∧ ∀ b, decode w ≠ .ok (.upd b)) :
    ∃ t, stepN ws.length (issue ws s) = .next t ∧ t.accum = s.accum := by
  have hnone : ws.filter isUpdate = [] := List.filter_eq_nil_iff.2 fun w hw hupd =>
    have ⟨b, hb⟩ := (isUpdate_iff w).1 hupd
    (hws w hw).2 b hb
  obtain ⟨t, t', ht, ht', haccum⟩ := stepN_filter_isUpdate ws (rfl : s.accum = s.accum) rfl fun w hw => (hws w hw).1
  rw [hnone] at ht'
  cases ht'
  exact ⟨t, ht, haccum⟩

/-- `DGST` reads the accumulator only. -/
theorem exec_dgst_of_accum_eq {s s' : State} (h : s.accum = s'.accum) :
    ∃ t t', exec .dgst s = .next t ∧ exec .dgst s' = .next t' ∧ t.dg = t'.dg ∧
      t.responses.head? = t'.responses.head? := by
  refine ⟨_, _, exec_dgst s, exec_dgst s', ?_, ?_⟩
  · simp only [respond_dg, h]
  · simp only [respond_responses, List.head?_cons, h]

/-- Settles O38: neither `DGST` nor the words between two of them write the accumulator, which is all `DGST` reads. -/
theorem dgstIsNonDestructive : Obligations.DgstIsNonDestructive := by
  refine ⟨fun s => ⟨_, exec_dgst s, rfl⟩, fun s ws hws => ?_, fun s s' => exec_dgst_of_accum_eq⟩
  obtain ⟨u, hrun, haccum⟩ :=
    stepN_accum_eq ws (respond (packDigest (buildDigest s.accum)) { s with dg := buildDigest s.accum }) hws
  obtain ⟨v, t, hv, ht, hsame⟩ := exec_dgst_of_accum_eq (s' := s) haccum
  cases ht
  exact ⟨_, u, v, exec_dgst s, hrun, hv, hsame⟩

/-! ### The slots against their mean -/

/-- The sum of the slots, slot by slot. -/
theorem slotSum_eq_sum_range {n : Nat} (a : Accumulator n) :
    a.slotSum = ((List.range 256).map fun i => (at8 a.acc (BitVec.ofNat 8 i)).toNat).sum := by
  refine congrArg List.sum (List.ext_getElem (by simp) fun i hi _ => ?_)
  have hlt : i < 256 := by simpa using hi
  simp [at8_ofNat _ _ hlt]

/-- 256 slots and 256 times their mean add up to the same. -/
theorem sum_mul_slots_eq {n : Nat} (a : Accumulator n) :
    ((List.range 256).map fun i => 256 * (at8 a.acc (BitVec.ofNat 8 i)).toNat).sum =
      ((List.range 256).map fun _ => a.slotSum).sum := by
  rw [List.sum_map_mul_left, ← slotSum_eq_sum_range, List.map_const', List.sum_replicate, List.length_range,
    smul_eq_mul]

theorem exists_slot_le_mean {n : Nat} (a : Accumulator n) : ∃ i, 256 * (at8 a.acc i).toNat ≤ a.slotSum := by
  obtain ⟨i, -, hi⟩ := List.exists_le_of_sum_le (by decide) _ _ (sum_mul_slots_eq a).le
  exact ⟨_, hi⟩

theorem exists_mean_le_slot {n : Nat} (a : Accumulator n) : ∃ i, a.slotSum ≤ 256 * (at8 a.acc i).toNat := by
  obtain ⟨i, -, hi⟩ := List.exists_le_of_sum_le (by decide) _ _ (sum_mul_slots_eq a).ge
  exact ⟨_, hi⟩

/-- The mean slot value is no integer once a trigram has been counted (R117 (g)). -/
theorem not_dvd_total {c : Nat} (h : 3 ≤ c) : ¬ 256 ∣ total c := by
  obtain rfl | rfl | hc : c = 3 ∨ c = 4 ∨ 5 ≤ c := by omega
  · decide
  · decide
  · rw [total_of_five_le c hc]
    omega

/-! ### Which bits are set, and how many (R117) -/

theorem digestBit_iff {n : Nat} (a : Accumulator n) (i : Byte) :
    digestBit a i = true ↔ total a.count.toNat < 256 * (at8 a.acc i).toNat :=
  aboveMean_iff _ _

theorem digestBit_eq_false_iff {n : Nat} (a : Accumulator n) (i : Byte) :
    digestBit a i = false ↔ 256 * (at8 a.acc i).toNat ≤ total a.count.toNat := by
  rw [← Bool.not_eq_true, digestBit_iff, Nat.not_lt]

theorem exists_digestBit_false {n : Nat} {a : Accumulator n} (h : a.slotSum = total a.count.toNat) :
    ∃ i, digestBit a i = false := by
  obtain ⟨i, hi⟩ := exists_slot_le_mean a
  exact ⟨i, (digestBit_eq_false_iff a i).2 (h ▸ hi)⟩

/-- Some slot is at least the mean, and none can equal a mean that is no integer. -/
theorem exists_digestBit_true {n : Nat} {a : Accumulator n} (h : a.slotSum = total a.count.toNat)
    (hc : 3 ≤ a.count.toNat) : ∃ i, digestBit a i = true := by
  obtain ⟨i, hi⟩ := exists_mean_le_slot a
  have hne : total a.count.toNat ≠ 256 * (at8 a.acc i).toNat := fun heq => not_dvd_total hc ⟨_, heq⟩
  exact ⟨i, (digestBit_iff a i).2 (lt_of_le_of_ne (h ▸ hi) hne)⟩

/-- Every set bit has a slot that is not zero, so there are at most as many as the slots add up to. -/
theorem length_filter_digestBit_le {n : Nat} (a : Accumulator n) :
    ((List.range 256).filter fun i => digestBit a (BitVec.ofNat 8 i)).length ≤ a.slotSum := by
  have hpos : ∀ i : Byte, digestBit a i = true → 1 ≤ (at8 a.acc i).toNat := fun i hi => by
    have := (digestBit_iff a i).1 hi
    omega
  rw [slotSum_eq_sum_range,
    ← List.length_map (as := List.filter _ _) fun i => (at8 a.acc (BitVec.ofNat 8 i)).toNat]
  refine (List.length_le_sum_of_one_le _ fun x hx => ?_).trans
    ((List.filter_sublist.map _).sum_le_sum fun _ _ => Nat.zero_le _)
  obtain ⟨i, hi, rfl⟩ := List.mem_map.1 hx
  exact hpos _ (List.mem_filter.1 hi).2

theorem length_filter_digestBit_pos {n : Nat} {a : Accumulator n} (h : ∃ i, digestBit a i = true) :
    1 ≤ ((List.range 256).filter fun i => digestBit a (BitVec.ofNat 8 i)).length := by
  obtain ⟨i, hi⟩ := h
  refine List.length_pos_of_mem (a := i.toNat) (List.mem_filter.2 ⟨List.mem_range.2 i.isLt, ?_⟩)
  rwa [BitVec.ofNat_toNat, BitVec.setWidth_eq]

/-- While `total` is below 256, any slot that is not zero is above the mean (R117 (d)). -/
theorem digestBit_iff_ne_zero {n : Nat} {a : Accumulator n} (h : total a.count.toNat < 256) (i : Byte) :
    digestBit a i = true ↔ (at8 a.acc i).toNat ≠ 0 := by
  rw [digestBit_iff]
  omega

theorem total_lt_256_of_le {c : Nat} (h : c ≤ 35) : total c < 256 := by
  unfold total
  split_ifs <;> omega

/-- A digest without a set bit is 32 zero bytes. -/
theorem at5_buildDigest_eq_zero {n : Nat} {a : Accumulator n} (h : ∀ i, digestBit a i = false) (j : BitVec 5) :
    at5 (buildDigest a) j = 0x00#8 := by
  apply BitVec.eq_of_getLsbD_eq
  intro k hk
  rw [at5, buildDigest_getLsbD a _ _ j.isLt hk, h, BitVec.getLsbD_zero]

/-- Settles O39: the slots add up to `total(COUNT)`, so no slot is above it, not all are above the mean, and not all
below it; each range of `COUNT` then compares `total` with 256. -/
theorem digestCornerCases : Obligations.DigestCornerCases := by
  intro s ⟨_, _, hsum⟩ c slot
  refine ⟨_, exec_dgst s, ?_⟩
  intro bit ones
  have hbit : bit = digestBit s.accum := funext (packDigest_buildDigest_slot_bit s.accum)
  have hslot (i : Byte) : slot i ≤ total c := hsum ▸ slot_le_sum s.accum.acc i
  have htrue := exists_digestBit_true hsum
  have hle : ones ≤ total c := by
    rw [← hsum]
    simp only [ones, hbit]
    exact length_filter_digestBit_le s.accum
  have hpos (hc : 3 ≤ c) : 1 ≤ ones := by
    simp only [ones, hbit]
    exact length_filter_digestBit_pos (htrue hc)
  have hnonzero (hc : c ≤ 35) (i : Byte) : bit i = true ↔ slot i ≠ 0 := by
    rw [hbit]
    exact digestBit_iff_ne_zero (total_lt_256_of_le hc) i
  refine ⟨fun hc => at5_buildDigest_eq_zero fun i => ?_, fun hc => ⟨?_, fun i => ?_⟩,
    fun hc => ⟨hnonzero (by omega), hpos (by omega), ?_⟩, fun hc => hnonzero hc.2, fun hc i hi => ?_, fun i => ?_,
    fun hc => not_dvd_total (by omega), ?_, ?_⟩
  · have htotal : total c = 0 := if_pos hc
    have := hslot i
    exact (digestBit_eq_false_iff s.accum i).2 (show 256 * slot i ≤ total c by omega)
  · have htotal : total c = 1 := by rw [hc]; rfl
    have := hpos (by omega)
    omega
  · have htotal : total c = 1 := by rw [hc]; rfl
    have := hslot i
    rw [hnonzero (by omega)]
    omega
  · have htotal : total c = 4 := by rw [hc]; rfl
    omega
  · have htotal := total_of_five_le c (by omega)
    rw [hbit]
    exact (digestBit_eq_false_iff s.accum i).2 (show 256 * slot i ≤ total c by omega)
  · rw [hbit]
    exact aboveMean_iff_div_lt_nat _ _
  · rw [hbit]
    exact exists_digestBit_false hsum
  · rw [hbit]
    exact htrue

end Sys2Proof.Machine

/-! The comparator: clearing and loading the operands, moving the digest into them, and the score of `CMP`
(spec/43_comparator.md R120 to R131). -/

namespace Sys2Proof.Machine

/-! ### Clearing, loading and moving one at a time (R120 to R125) -/

/-- Settles O42: the buffer `CLRA` writes is the empty one of reset. -/
theorem clraEmptiesOperandA : Obligations.ClraEmptiesOperandA :=
  ⟨decode_encode .clra, exec_clra⟩

/-- Settles O43: the buffer `CLRB` writes is the empty one of reset. -/
theorem clrbEmptiesOperandB : Obligations.ClrbEmptiesOperandB :=
  ⟨decode_encode .clrb, exec_clrb⟩

/-- The store guard of R122 on the whole buffer: a full buffer counts the byte and does not store it. -/
theorem append_eq (b : OperandBuffer) (v : Byte) :
    b.append v =
      { bytes := if h : b.len.toNat < 32 then b.bytes.set b.len.toNat v h else b.bytes
        len := BitVec.ofNat 6 (min (b.len.toNat + 1) 63) } := by
  by_cases h : b.len.toNat < 32
  · rw [dif_pos h, ← append_bytes_below b v h]
    rfl
  · rw [dif_neg h, ← append_bytes_full b v h]
    rfl

/-- Settles O44: the word is that of the opcode table, and the new buffer is the one the guard gives. -/
theorem ldaAppendsToOperandA : Obligations.LdaAppendsToOperandA := fun v s =>
  ⟨decode_add 0x8#4 v, by rw [exec_lda, append_eq]; rfl⟩

/-- Settles O45: the word is that of the opcode table, and the new buffer is the one the guard gives. -/
theorem ldbAppendsToOperandB : Obligations.LdbAppendsToOperandB := fun v s =>
  ⟨decode_add 0x9#4 v, by rw [exec_ldb, append_eq]; rfl⟩

/-- Settles O46: `MVA` writes a whole digest's buffer. -/
theorem mvaCopiesTheDigestToOperandA : Obligations.MvaCopiesTheDigestToOperandA :=
  ⟨decode_encode .mva, exec_mva⟩

/-- Settles O47: `MVB` writes a whole digest's buffer. -/
theorem mvbCopiesTheDigestToOperandB : Obligations.MvbCopiesTheDigestToOperandB :=
  ⟨decode_encode .mvb, exec_mvb⟩

/-! ### A clear and a list of loads (R20, R122, R123) -/

/-- The buffer has been loaded with the bytes `bs`, in order, since it was cleared: their number up to 63 is counted,
the first 32 are stored, and 0x00 stands above their end. -/
structure OperandBuffer.Holds (b : OperandBuffer) (bs : List Byte) : Prop where
  len : b.len.toNat = min bs.length 63
  bytes : ∀ k : Fin 32, b.bytes[k.val] = bs.getD k.val 0x00#8

theorem buffer_empty_holds : OperandBuffer.empty.Holds [] where
  len := rfl
  bytes k := by simp [OperandBuffer.empty]

theorem append_holds {b : OperandBuffer} {bs : List Byte} (h : b.Holds bs) (v : Byte) :
    (b.append v).Holds (bs ++ [v]) where
  len := by
    rw [append_len, bumpLen_toNat, h.len, List.length_append, List.length_singleton]
    omega
  bytes k := by
    have hk := k.isLt
    have hlen := h.len
    by_cases hlt : b.len.toNat < 32
    · have hpos : b.len.toNat = bs.length := by omega
      simp only [append_bytes_below b v hlt, Vector.getElem_set, hpos]
      rcases lt_trichotomy k.val bs.length with hbelow | heq | habove
      · rw [if_neg (by omega), List.getD_append _ _ _ _ hbelow, h.bytes k]
      · rw [if_pos heq.symm, List.getD_append_right _ _ _ _ (by omega), heq, Nat.sub_self]
        rfl
      · rw [if_neg (by omega), h.bytes k, List.getD_eq_default _ _ (by omega),
          List.getD_eq_default _ _ (by simpa using habove)]
    · simp only [append_bytes_full b v hlt]
      rw [List.getD_append _ _ _ _ (by omega), h.bytes k]

theorem foldl_append_holds {b : OperandBuffer} {seen : List Byte} (h : b.Holds seen) (bs : List Byte) :
    (bs.foldl OperandBuffer.append b).Holds (seen ++ bs) := by
  induction bs generalizing b seen with
  | nil => rwa [List.append_nil]
  | cons v bs ih => simpa using ih (append_holds h v)

/-- The first command of an encoded list is executed, then the rest is issued. -/
theorem stepN_issue_encode_cons (k : Nat) {i : Instr} (ws : List CommandWord) {s t : State} (h : exec i s = .next t) :
    stepN (k + 1) (issue (encode i :: ws) s) = stepN k (issue ws t) :=
  stepN_issue_cons k _ ws s t ((execWord_encode i s).trans h)

/-- A run of loads, for either operand: `put b rs` is the state with the buffer `b` in the operand that `load` appends
to, and the responses `rs`. -/
theorem stepN_loads {load : Byte → Instr} {put : OperandBuffer → List Response → State}
    (hload : ∀ v b rs, exec (load v) (put b rs) = .next (put (b.append v) (⟨.ok, 0⟩ :: rs)))
    (bs : List Byte) (b : OperandBuffer) (rs : List Response) :
    stepN bs.length (issue (bs.map fun v => encode (load v)) (put b rs)) =
      .next (put (bs.foldl OperandBuffer.append b) (List.replicate bs.length ⟨.ok, 0⟩ ++ rs)) := by
  induction bs generalizing b rs with
  | nil => rfl
  | cons v bs ih =>
    rw [List.length_cons, List.map_cons, stepN_issue_encode_cons _ _ (hload v b rs), ih, List.replicate_succ',
      List.append_assoc]
    rfl

/-- A clear and a run of loads, for either operand: `put` as in `stepN_loads`. -/
theorem stepN_clear_loads {clear : Instr} {load : Byte → Instr} {put : OperandBuffer → List Response → State}
    {s : State} (hclear : exec clear s = .next (put OperandBuffer.empty (⟨.ok, 0⟩ :: s.responses)))
    (hload : ∀ v b rs, exec (load v) (put b rs) = .next (put (b.append v) (⟨.ok, 0⟩ :: rs))) (bs : List Byte) :
    ∃ b : OperandBuffer, b.Holds bs ∧
      stepN (bs.length + 1) (issue (encode clear :: bs.map fun v => encode (load v)) s) =
        .next (put b (List.replicate (bs.length + 1) ⟨.ok, 0⟩ ++ s.responses)) := by
  refine ⟨_, foldl_append_holds buffer_empty_holds bs, ?_⟩
  rw [stepN_issue_encode_cons _ _ hclear, stepN_loads hload, List.replicate_succ', List.append_assoc]
  rfl

/-- Settles O48: the run of `stepN_clear_loads` for the one operand and for the other. -/
theorem loadedOperandHoldsTheBytesInOrder : Obligations.LoadedOperandHoldsTheBytesInOrder := by
  intro s bs
  obtain ⟨a, ha, hrunA⟩ := stepN_clear_loads (put := fun b rs => { s with opA := b, responses := rs })
    (exec_clra s) (fun v _ _ => exec_lda v _) bs
  obtain ⟨b, hb, hrunB⟩ := stepN_clear_loads (put := fun b rs => { s with opB := b, responses := rs })
    (exec_clrb s) (fun v _ _ => exec_ldb v _) bs
  exact ⟨⟨_, hrunA, ha.len, ha.bytes, rfl⟩, ⟨_, hrunB, hb.len, hb.bytes, rfl⟩⟩

/-! ### `CMP` by the two lengths, and what it leaves (R126, R127, R131) -/

theorem exec_cmp_of_len {s : State} (ha : s.opA.len = 32#6) (hb : s.opB.len = 32#6) :
    exec .cmp s = .next (respond (scorePayload (score s.popc s.opA.bytes s.opB.bytes)) s) :=
  exec_cmp_digests s ((isDigest_iff _).2 ha) ((isDigest_iff _).2 hb)

theorem exec_cmp_of_len_ne {s : State} (h : ¬ (s.opA.len = 32#6 ∧ s.opB.len = 32#6)) :
    exec .cmp s = .next (raise .invalidDigestLength s) := by
  refine exec_cmp_wrong s ?_
  rwa [← Bool.not_eq_true, Bool.and_eq_true, isDigest_iff, isDigest_iff]

/-- Settles O49: the score and its payload written out, and the length check. -/
theorem cmpAnswersTheScore : Obligations.CmpAnswersTheScore :=
  ⟨decode_encode .cmp, fun _ => exec_cmp_of_len, fun _ => exec_cmp_of_len_ne⟩

/-- Settles O51: `FAULT.IDL` and the error response are all that `raise` writes. -/
theorem cmpRefusesWrongLengths : Obligations.CmpRefusesWrongLengths :=
  fun _ h => exec_cmp_of_len_ne (not_and_or.2 h)

/-- With another accumulator and another `DG`, `CMP` takes the same branch and gives the same response. -/
theorem exec_cmp_with_accum_dg {s t : State} (a : Accumulator Config.cntW) (d : Vector Byte 32)
    (h : exec .cmp s = .next t) :
    exec .cmp { s with accum := a, dg := d } = .next { t with accum := a, dg := d } := by
  obtain ⟨hd, rfl⟩ | ⟨ha, hb, rfl⟩ := exec_cmp_cases h
  · exact exec_cmp_wrong _ hd
  · exact exec_cmp_digests _ ha hb

/-- Settles O53: the frame of `CMP`, a second `CMP`, and one with the registers it does not read replaced. -/
theorem cmpLeavesOperandsAndReadsNothingElse : Obligations.CmpLeavesOperandsAndReadsNothingElse := by
  intro s a d
  obtain ⟨t, -, h, -⟩ := exec_next .cmp s
  obtain ⟨haccum, hdg, hopA, hopB, -⟩ := exec_ownsItsWrites h
  obtain ⟨r, hr, hagain⟩ := exec_cmp_repeat h
  exact ⟨t, _, _, r, h, hr, hopA (by simp) (by simp) (by simp), hopB (by simp) (by simp) (by simp),
    haccum (by simp) (by simp), hdg (by simp), hagain, rfl, exec_cmp_with_accum_dg a d h, rfl⟩

/-! ### The Hamming distance, bit by bit and byte by byte (R128) -/

/-- The two digests differ at position `i`, one of 256: bit `i mod 8` of byte `i / 8`. -/
def differsAt (a b : Vector Byte 32) (i : Nat) : Bool :=
  (at5 a (BitVec.ofNat 5 (i / 8))).getLsbD (i % 8) != (at5 b (BitVec.ofNat 5 (i / 8))).getLsbD (i % 8)

theorem hamming_eq_countP (a b : Vector Byte 32) : hamming a b = (List.range 256).countP (differsAt a b) :=
  List.countP_eq_length_filter.symm

theorem differsAt_byte_bit (a b : Vector Byte 32) (k j : Nat) (hj : j < 8) :
    differsAt a b (8 * k + j) = (at5 a (BitVec.ofNat 5 k) ^^^ at5 b (BitVec.ofNat 5 k)).getLsbD j := by
  have hbyte : (8 * k + j) / 8 = k := by omega
  have hbit : (8 * k + j) % 8 = j := by omega
  rw [differsAt, hbyte, hbit, BitVec.getLsbD_xor]

theorem popcEntry_toNat_eq_countP (x : Byte) : (Config.popcEntry x).toNat = (List.range 8).countP x.getLsbD := by
  revert x; decide

/-- `POPC` of the XOR of two bytes is the number of positions in which they differ. -/
theorem popc_xor_toNat (a b : Vector Byte 32) (k : Nat) :
    (at8 Config.popc (at5 a (BitVec.ofNat 5 k) ^^^ at5 b (BitVec.ofNat 5 k))).toNat =
      ((List.range 8).map (8 * k + ·)).countP (differsAt a b) := by
  rw [at8_popc, popcEntry_toNat_eq_countP, List.countP_map]
  refine List.countP_congr fun j hj => ?_
  rw [Function.comp_apply, differsAt_byte_bit _ _ _ _ (List.mem_range.1 hj)]

/-- The first `n` bytes of the sum of R128 count the first `8 n` positions. -/
theorem sum_popc_xor_range (a b : Vector Byte 32) (n : Nat) :
    ((List.range n).map fun k =>
      (at8 Config.popc (at5 a (BitVec.ofNat 5 k) ^^^ at5 b (BitVec.ofNat 5 k))).toNat).sum =
      (List.range (8 * n)).countP (differsAt a b) := by
  induction n with
  | zero => rfl
  | succ n ih =>
    rw [List.range_succ, List.map_append, List.sum_append, ih, List.map_singleton, List.sum_singleton, popc_xor_toNat,
      Nat.mul_succ, List.range_add, List.countP_append]

theorem bitDiffSum_popc (a b : Vector Byte 32) : bitDiffSum Config.popc a b = hamming a b :=
  (sum_popc_xor_range a b 32).trans (hamming_eq_countP a b).symm

theorem score_popc (a b : Vector Byte 32) : score Config.popc a b = 128 - (hamming a b : Int) := by
  rw [score, bitDiffSum_popc]

theorem hamming_le (a b : Vector Byte 32) : hamming a b ≤ 256 :=
  hamming_eq_countP a b ▸ List.countP_le_length.trans_eq List.length_range

/-- The 256 positions are the 8 bits of each of the 32 bytes. -/
theorem forall_range_byte_bit {P : BitVec 5 → Nat → Prop} :
    (∀ i ∈ List.range 256, P (BitVec.ofNat 5 (i / 8)) (i % 8)) ↔ ∀ k, ∀ j < 8, P k j := by
  constructor
  · intro h k j hj
    have hk := k.isLt
    have hbyte : (8 * k.toNat + j) / 8 = k.toNat := by omega
    have hbit : (8 * k.toNat + j) % 8 = j := by omega
    simpa [hbyte, hbit] using h (8 * k.toNat + j) (List.mem_range.2 (by omega))
  · exact fun h i _ => h _ _ (Nat.mod_lt i (by decide))

theorem hamming_eq_zero_iff (a b : Vector Byte 32) : hamming a b = 0 ↔ a = b := by
  rw [hamming_eq_countP, List.countP_eq_zero]
  simp only [differsAt, bne_iff_ne, ne_eq, not_not]
  rw [forall_range_byte_bit (P := fun k j => (at5 a k).getLsbD j = (at5 b k).getLsbD j)]
  exact ⟨fun h => at5_ext fun k => BitVec.eq_of_getLsbD_eq (h k), fun h _ _ _ => h ▸ rfl⟩

theorem hamming_eq_256_iff (a b : Vector Byte 32) : hamming a b = 256 ↔ ∀ k, at5 a k = ~~~ at5 b k := by
  have hall := List.countP_eq_length (p := differsAt a b) (l := List.range 256)
  rw [List.length_range, ← hamming_eq_countP] at hall
  rw [hall]
  simp only [differsAt]
  rw [forall_range_byte_bit (P := fun k j => ((at5 a k).getLsbD j != (at5 b k).getLsbD j) = true)]
  refine forall_congr' fun k => ⟨fun h => BitVec.eq_of_getLsbD_eq fun j hj => ?_, fun h j hj => ?_⟩
  · rw [BitVec.getLsbD_not, decide_eq_true hj, Bool.true_and]
    exact Bool.eq_not_of_ne (bne_iff_ne.1 (h j hj))
  · rw [h, BitVec.getLsbD_not, decide_eq_true hj, Bool.true_and]
    simp

/-! ### The score and its payload (R129, R130) -/

/-- A score that fits in 9 bits is the payload's value as a signed number (log entry 14). -/
theorem scorePayload_toInt {v : Int} (hlo : -256 ≤ v) (hhi : v < 256) : (scorePayload v).toInt = v := by
  rw [scorePayload, BitVec.toInt_signExtend_of_le (by decide), BitVec.toInt_ofInt]
  exact Int.bmod_eq_of_le (by omega) (by omega)

/-- Settles O50: the score fits in the payload, and its three values are the distances 0, 256 and 128. -/
theorem scoreIs128LessHammingDistance : Obligations.ScoreIs128LessHammingDistance := by
  intro s hpopc ha hb
  have hle := hamming_le s.opA.bytes s.opB.bytes
  have hvalue : (scorePayload (score s.popc s.opA.bytes s.opB.bytes)).toInt =
      128 - (hamming s.opA.bytes s.opB.bytes : Int) := by
    rw [hpopc, score_popc]
    exact scorePayload_toInt (by omega) (by omega)
  refine ⟨_, exec_cmp_of_len ha hb, hvalue, by omega, by omega, ?_, ?_, by omega⟩
  · rw [← hamming_eq_zero_iff]
    omega
  · rw [← hamming_eq_256_iff]
    omega

theorem score_popc_self (x : Vector Byte 32) : score Config.popc x x = 128 := by
  rw [score_popc, (hamming_eq_zero_iff x x).2 rfl]
  rfl

/-- The operands enter the score through their XOR only, whatever `POPC` holds. -/
theorem score_eq_of_xor_eq (popc : PopcTable) {a b a' b' : Vector Byte 32}
    (h : ∀ k, at5 a k ^^^ at5 b k = at5 a' k ^^^ at5 b' k) : score popc a b = score popc a' b' := by
  simp only [score, bitDiffSum, h]

theorem score_comm (popc : PopcTable) (a b : Vector Byte 32) : score popc a b = score popc b a :=
  score_eq_of_xor_eq popc fun _ => BitVec.xor_comm _ _

theorem score_popc_ones_zeros :
    score Config.popc (Vector.replicate 32 0xFF#8) (Vector.replicate 32 0x00#8) = -128 := by
  rw [score_popc, (hamming_eq_256_iff _ _).2 fun k => by rw [at5_replicate, at5_replicate]; rfl]
  rfl

/-- A digest just built and moved to both operands is compared with itself (R130). -/
theorem stepN_dgst_mva_mvb_cmp {s : State} (hpopc : s.popc = Config.popc) :
    ∃ t, stepN 4 (issue [encode .dgst, encode .mva, encode .mvb, encode .cmp] s) = .next t ∧
      t.responses.head? = some ⟨.ok, 128⟩ := by
  have hself : scorePayload (score s.popc (buildDigest s.accum) (buildDigest s.accum)) = 128 := by
    rw [hpopc, score_popc_self]
    rfl
  refine ⟨_, (stepN_issue_encode_cons 3 _ (exec_dgst s)).trans <|
    (stepN_issue_encode_cons 2 _ (exec_mva _)).trans <|
    (stepN_issue_encode_cons 1 _ (exec_mvb _)).trans <|
    (stepN_issue_encode_cons 0 _ (exec_cmp_of_len rfl rfl)).trans rfl, ?_⟩
  exact congrArg (fun p => some (Response.mk .ok p)) hself

/-- Settles O52: every property of the score but the run follows from the distance or from the XOR. -/
theorem scoreProperties : Obligations.ScoreProperties :=
  ⟨fun _ => exec_cmp_of_len, score_popc_self, score_popc_ones_zeros, score_comm _, score_popc,
    fun _ _ _ _ => score_eq_of_xor_eq _, fun _ => stepN_dgst_mva_mvb_cmp⟩

end Sys2Proof.Machine

/-! The status command: the fields of the `STAT` payload (spec/44_system.md R140, R141). -/

namespace Sys2Proof.Machine

/-! ### One field of the layout: it lies in the low part of what is above it, and is the high part of what is left -/

/-- The registers of one value each. -/
theorem statusWord_registers (s : State) :
    (statusWord s).extractLsb' 0 64 = s.accum.count.setWidth 64 ∧ (statusWord s).extractLsb' 64 4 = s.accum.p ∧
      (statusWord s).extractLsb' 72 6 = s.opA.len ∧ (statusWord s).extractLsb' 80 6 = s.opB.len ∧
      (statusWord s).extractLsb' 88 3 = s.fault := by
  simp (disch := decide) only [statusWord, extract_append_low, extract_append_high, extract_self, and_self]

/-- `W[k]`, one byte a position from bit 96 up. -/
theorem statusWord_window (s : State) (k : Fin 4) :
    (statusWord s).extractLsb' (96 + 8 * k.val) 8 = s.accum.w[k.val] := by
  match k with
  | 0 | 1 | 2 | 3 =>
    simp (disch := decide) only [statusWord, extract_append_low, extract_append_high]
    rfl

/-- The bits between the registers and above them. -/
theorem statusWord_spare (s : State) :
    (statusWord s).extractLsb' 68 4 = 0#4 ∧ (statusWord s).extractLsb' 78 2 = 0#2 ∧
      (statusWord s).extractLsb' 86 2 = 0#2 ∧ (statusWord s).extractLsb' 91 5 = 0#5 ∧
      (statusWord s).extractLsb' 128 128 = 0#128 := by
  simp (disch := decide) only [statusWord, extract_append_low, extract_append_high, and_self]

/-- Settles O54: the payload field by field, and a window field whose symbol is absent by the invariant. -/
theorem statReportsTheSmallRegisters : Obligations.StatReportsTheSmallRegisters := by
  refine ⟨decode_encode .stat, fun s => ⟨statusWord s, exec_stat s, ?_⟩⟩
  obtain ⟨hcount, hp, hla, hlb, hfault⟩ := statusWord_registers s
  obtain ⟨h68, h78, h86, h91, h128⟩ := statusWord_spare s
  refine ⟨hcount, hp, h68, hla, h78, hlb, h86, hfault, h91, statusWord_window s 0, statusWord_window s 1,
    statusWord_window s 2, statusWord_window s 3, h128, ?_⟩
  rintro ⟨-, habsent, -⟩ k hk
  rw [statusWord_window, habsent k hk]

end Sys2Proof.Machine

/-! Errors and idling: which word in which state raises which error, what error entry leaves, and the step with no event
(spec/60_exceptions.md R150, R154, R163). -/

namespace Sys2Proof.Machine

/-! ### The list of errors (R150) -/

/-- The condition under which the word `w` in the state `s` raises an error (R150, columns "Raised by" and "Condition"). -/
def Raises (w : CommandWord) (s : State) : Error → Prop
  | .invalidDigestLength => decode w = .ok .cmp ∧ (s.opA.len ≠ 32#6 ∨ s.opB.len ≠ 32#6)
  | .illegalCommand => ∀ i, decode w ≠ .ok i
  | .countOverflow => (∃ b, decode w = .ok (.upd b)) ∧ s.accum.count.toNat = 2 ^ 32 - 1

theorem error_status_ne_ok (e : Error) : e.status ≠ .ok := by
  cases e <;> decide

theorem error_status_injective : Function.Injective Error.status := by
  intro e e'
  cases e <;> cases e' <;> decide

theorem execWord_of_raises {w : CommandWord} {s : State} {e : Error} (h : Raises w s e) :
    execWord w s = .next (raise e s) := by
  cases e with
  | invalidDigestLength =>
    obtain ⟨hw, hlen⟩ := h
    exact (execWord_decoded w _ s hw).trans (exec_cmp_of_len_ne (not_and_or.2 hlen))
  | illegalCommand =>
    cases hw : decode w with
    | error why => exact execWord_illegal w why s hw
    | ok i => exact absurd hw (h i)
  | countOverflow =>
    obtain ⟨⟨b, hw⟩, hcount⟩ := h
    exact (execWord_decoded w _ s hw).trans (exec_upd_top b s (atTop_of_count_eq hcount))

/-- What any word can do: raise an error whose condition holds, or respond after writing some of the registers a
command writes. -/
theorem execWord_raise_or_respond (w : CommandWord) (s : State) :
    (∃ e, Raises w s e ∧ execWord w s = .next (raise e s)) ∨
      ∃ v a d x y, execWord w s = .next (respond v { s with accum := a, dg := d, opA := x, opB := y }) := by
  cases hw : decode w with
  | error why => exact .inl ⟨.illegalCommand, fun i hi => (by cases hw.symm.trans hi), execWord_illegal w why s hw⟩
  | ok i =>
    rw [execWord_decoded w i s hw]
    obtain ⟨e, h, ⟨rfl, ⟨b, rfl⟩, htop⟩ | ⟨rfl, rfl, hlen⟩⟩ | hresponds := exec_cases i s
    · exact .inl ⟨.countOverflow, ⟨⟨b, hw⟩, beq_iff_eq.1 htop⟩, h⟩
    · rw [← Bool.not_eq_true, Bool.and_eq_true, isDigest_iff, isDigest_iff, not_and_or] at hlen
      exact .inl ⟨.invalidDigestLength, ⟨hw, hlen⟩, h⟩
    · exact .inr hresponds

/-- A word is answered with the status of an error exactly under that error's condition. -/
theorem status_eq_iff_raises {w : CommandWord} {s t : State} {r : Response} (h : execWord w s = .next t)
    (hr : t.responses = r :: s.responses) (e : Error) : r.status = e.status ↔ Raises w s e := by
  constructor
  · intro hstatus
    obtain ⟨e', he', hraise⟩ | ⟨v, a, d, x, y, hrespond⟩ := execWord_raise_or_respond w s
    · cases h.symm.trans hraise
      cases hr
      rwa [← error_status_injective hstatus]
    · cases h.symm.trans hrespond
      cases hr
      exact absurd hstatus.symm (error_status_ne_ok e)
  · intro he
    cases h.symm.trans (execWord_of_raises he)
    cases hr
    rfl

/-- Settles O56: each status by its condition, and its code and `FAULT` bit by what the word did. -/
theorem errorsAreExactlyThese : Obligations.ErrorsAreExactlyThese := by
  intro s w rest hs
  rw [step_command s w rest hs]
  obtain ⟨t, r, h, -, hr, -⟩ := execWord_responds w (issued rest s)
  have hstatus := status_eq_iff_raises h hr
  refine ⟨t, r, h, hr, ?_, hstatus .invalidDigestLength, hstatus .illegalCommand, hstatus .countOverflow⟩
  obtain ⟨e, -, hraise⟩ | ⟨v, a, d, x, y, hrespond⟩ := execWord_raise_or_respond w (issued rest s)
  · cases h.symm.trans hraise
    cases hr
    cases e with
    | invalidDigestLength => exact .inr (.inl ⟨rfl, rfl, rfl⟩)
    | illegalCommand => exact .inr (.inr (.inl ⟨rfl, rfl, rfl⟩))
    | countOverflow => exact .inr (.inr (.inr ⟨rfl, rfl, rfl⟩))
  · cases h.symm.trans hrespond
    cases hr
    exact .inl ⟨rfl, rfl, rfl⟩

/-! ### Error entry (R154) -/

/-- Settles O55: a word whose response is no `OK` did `raise`, which writes `FAULT` and the response alone. -/
theorem errorEntryChangesOnlyFault : Obligations.ErrorEntryChangesOnlyFault := by
  intro s t w rest r hs h hr hstatus
  rw [step_command s w rest hs] at h
  obtain ⟨e, -, hraise⟩ | ⟨v, a, d, x, y, hrespond⟩ := execWord_raise_or_respond w (issued rest s)
  · cases h.symm.trans hraise
    cases hr
    refine ⟨e.faultBit, ?_, rfl⟩
    cases e with
    | invalidDigestLength => exact .inl ⟨rfl, rfl, rfl⟩
    | illegalCommand => exact .inr (.inl ⟨rfl, rfl, rfl⟩)
    | countOverflow => exact .inr (.inr ⟨rfl, rfl, rfl⟩)
  · cases h.symm.trans hrespond
    cases hr
    exact absurd rfl hstatus

/-! ### No event (R163) -/

/-- Settles O9: with nothing issued a step idles, and idling leaves the state. -/
theorem noEventNoChange : Obligations.NoEventNoChange :=
  step_no_event

end Sys2Proof.Machine

/-! The reset event, and what each command answers right after it (spec/70_reset_and_hazards.md R170, R172). -/

namespace Sys2Proof.Machine

/-! ### The reset event (R170) -/

/-- Settles O12: the event is taken from the host's list, and `takeReset` writes every register but the ROMs. -/
theorem resetEventRestoresResetValues : Obligations.ResetEventRestoresResetValues :=
  step_reset

/-! ### The digest of an empty stream (R110) -/

/-- No slot is above the mean: all are zero, and so is the total. -/
theorem digestBit_empty (n : Nat) (i : Byte) : digestBit (Accumulator.empty n) i = false := by
  rw [digestBit_eq_false_iff, empty_acc_at8]
  simp

theorem buildDigest_empty (n : Nat) : buildDigest (Accumulator.empty n) = Vector.replicate 32 0#8 :=
  at5_ext fun j => (at5_buildDigest_eq_zero (digestBit_empty n) j).trans (at5_replicate _ j).symm

theorem packDigest_zeros : packDigest (Vector.replicate 32 0#8) = 0 := by
  apply BitVec.eq_of_getLsbD_eq
  intro i hi
  rw [packDigest_getLsbD _ i hi, at5_replicate, BitVec.getLsbD_zero]
  exact BitVec.getLsbD_zero.symm

theorem exec_dgst_reset : exec .dgst State.reset = .next { State.reset with responses := [⟨.ok, 0⟩] } := by
  have hdigest : buildDigest State.reset.accum = State.reset.dg := buildDigest_empty _
  have hzero : packDigest State.reset.dg = 0 := packDigest_zeros
  rw [exec_dgst, hdigest, hzero]
  rfl

/-! ### Reading the reset registers (R99, R140) -/

theorem exec_rdh_reset (i : Byte) :
    exec (.rdh i) State.reset = .next { State.reset with responses := [⟨.ok, 0⟩] } := by
  have hslot : at8 State.reset.accum.acc i = 0 := empty_acc_at8 _ i
  rw [exec_rdh, hslot]
  rfl

theorem statusWord_reset : statusWord State.reset = 0 := by
  decide

theorem exec_stat_reset : exec .stat State.reset = .next { State.reset with responses := [⟨.ok, 0⟩] } := by
  rw [exec_stat, statusWord_reset]
  rfl

/-! ### Comparing (R124 to R130) -/

theorem exec_cmp_reset : exec .cmp State.reset =
    .next { State.reset with fault := 0b001#3, responses := [⟨.invalidDigestLength, 0⟩] } :=
  exec_cmp_of_len_ne (by decide)

/-- The last digest moved to both operands is compared with itself, whatever it is. -/
theorem stepN_mva_mvb_cmp {s : State} (hpopc : s.popc = Config.popc) :
    ∃ t, stepN 3 (issue [encode .mva, encode .mvb, encode .cmp] s) = .next t ∧
      t.responses = ⟨.ok, 128⟩ :: ⟨.ok, 0⟩ :: ⟨.ok, 0⟩ :: s.responses := by
  have hself : scorePayload (score s.popc s.dg s.dg) = 128 := by
    rw [hpopc, score_popc_self]
    rfl
  refine ⟨_, (stepN_issue_encode_cons 2 _ (exec_mva s)).trans <|
    (stepN_issue_encode_cons 1 _ (exec_mvb _)).trans <|
    (stepN_issue_encode_cons 0 _ (exec_cmp_of_len rfl rfl)).trans rfl, ?_⟩
  exact congrArg (fun v => ⟨.ok, v⟩ :: ⟨.ok, 0⟩ :: ⟨.ok, 0⟩ :: s.responses) hself

/-! ### The first symbol of a stream (R91, R93, R95) -/

/-- No symbol stands before the first, so no slot is selected. -/
theorem consume_empty (n : Nat) (t : TranTable) (b : Byte) : (Accumulator.empty n).consume t b =
    { Accumulator.empty n with w := #v[b, 0#8, 0#8, 0#8], p := 0b0001#4, count := 1 } := by
  have hnone : (present (Accumulator.empty n).p 0 && present (Accumulator.empty n).p 1) = false := by
    simp [present]
  have hwindow : shiftWindow (Accumulator.empty n).w b = #v[b, 0#8, 0#8, 0#8] := by
    simp [shiftWindow, Accumulator.empty]
  have hpresence : shiftPresence (Accumulator.empty n).p = 0b0001#4 := by
    rw [empty_p]
    rfl
  have hcount : (Accumulator.empty n).count + 1 = 1 := zero_add 1
  rw [Accumulator.consume, selectedSlots_absent _ _ _ _ hnone, bumpAll_nil, hwindow, hpresence, hcount]

theorem exec_upd_reset (b : Byte) : exec (.upd b) State.reset = .next
    { State.reset with
      accum := { State.reset.accum with w := #v[b, 0#8, 0#8, 0#8], p := 0b0001#4, count := 1 }
      responses := [⟨.ok, 0⟩] } := by
  have htop : State.reset.accum.atTop = false := atTop_of_count_ne (by decide)
  rw [exec_upd_below b State.reset htop]
  exact congrArg (fun a => Host.Outcome.next (respond 0 { State.reset with accum := a }))
    (consume_empty Config.cntW State.reset.tran b)

/-- Settles O13, command by command. -/
theorem commandsImmediatelyAfterReset : Obligations.CommandsImmediatelyAfterReset :=
  ⟨exec_dgst_reset, exec_rdh_reset, exec_stat_reset, exec_cmp_reset, stepN_mva_mvb_cmp rfl, exec_upd_reset⟩

end Sys2Proof.Machine
